-- ==== Sys2Proof/Word.lean ====
section
/-! DEFINITION. The word types of the machine and their plainest arithmetic: bytes, instruction words, addresses,
vector values and vector register numbers (00_scope.md R5 to R8). -/

namespace Sys2Proof

/-- An octet, 8 bits (00_scope.md R12). -/
abbrev Byte := BitVec 8

/-- An instruction word, `ILEN` = 32 bits (00_scope.md R5). -/
abbrev Word := BitVec 32

/-- A byte address. `PC_BITS` is 32 or 64 (10_state.md R18): 64 bits hold both, and the step keeps the value below
`2 ^ PC_BITS` (log 4). -/
abbrev Addr := BitVec 64

/-- A vector value: 16 bytes and nothing else. Index 0 is `byte[0]`, the most significant (00_scope.md R7). -/
abbrev Vec := Vector Byte 16

/-- The vector value whose bytes are all zero (`Z` of 40_vector_shift_double.md R61). -/
def Vec.zero : Vec := Vector.replicate 16 0

/-- The number of a vector register, 0 to 127 (10_state.md R14). -/
abbrev VRNum := BitVec 7

/-- The shift immediate `SHB`, 0 to 15, a count of bytes (30_encoding.md R40, R46). -/
abbrev Shb := BitVec 4

end Sys2Proof
end

