-- ==== Sys2Proof/Config.lean ====
section
/-! DEFINITION. What is fixed for one run of the machine: the parameters of 00_scope.md R5 that are not constants.
They are arguments of the step relation in the spec (10_state.md R22); the model carries them in `State.params`,
which no step changes (log 3). No result of either instruction is undefined, so this file holds no free value. -/

namespace Sys2Proof

/-- `PC_BITS`: 32 or 64 (00_scope.md R5, D2). -/
inductive PcBits where
  | b32
  | b64
  deriving DecidableEq, Repr

/-- The number of bits. -/
def PcBits.width : PcBits → Nat
  | .b32 => 32
  | .b64 => 64

/-- `VSLDOI_BIT21`: what a `vsldoi` word with source bit 21 = 1 is (30_encoding.md R49, D5). -/
inductive Bit21 where
  /-- The word is refused (`ReservedBit21`). The spec's default. -/
  | refuse
  /-- The word is `vsldoi` with the operands of R40. -/
  | ignore
  deriving DecidableEq, Repr

/-- The parameters and platform premises of a run. -/
structure Params where
  /-- `PC_BITS` (00_scope.md R5). -/
  pcBits : PcBits
  /-- `PROGRAM_BASE`, the address of the first word of the program text (00_scope.md R5). -/
  programBase : Addr
  /-- `VSLDOI_BIT21` (30_encoding.md R49). -/
  bit21 : Bit21
  /-- `VEC_AVAILABLE`: the vector facility is enabled (60_exceptions.md R66). -/
  vecAvailable : Bool
  /-- `NoInterrupts`: the host delivers no interrupt during the run (60_exceptions.md R67). -/
  noInterrupts : Bool
  deriving DecidableEq, Repr

/-- The parameters `State.reset` starts with: the spec's defaults for VSLDOI_BIT21, VEC_AVAILABLE and NoInterrupts;
PC_BITS = 32 and PROGRAM_BASE = 0 are DESIGN CHOICE (logs 4 and 5). -/
def Params.standard : Params where
  pcBits := .b32
  programBase := 0
  bit21 := .refuse
  vecAvailable := true
  noInterrupts := true

end Sys2Proof
end

