-- ==== Sys2Proof/Syntax.lean ====
section
/-! DEFINITION. The instructions, one constructor per row of spec/opcode_table.json, and an assembler line as it is
written before any range is checked (30_encoding.md section 5). -/

namespace Sys2Proof

/-- An instruction with its operands decoded. Both instructions name registers of the one file of 128
(10_state.md R14); that `vsldoi` names only 0 to 31 is a check of `WellFormed`. -/
inductive Instr where
  /-- `vsldoi VD, VA, VB, SHB` (40_vector_shift_double.md R57). -/
  | vsldoi (vd va vb : VRNum) (shb : Shb)
  /-- `vsldoi128 VD, VA, VB, SHB` (40_vector_shift_double.md R58). -/
  | vsldoi128 (vd va vb : VRNum) (shb : Shb)
  deriving DecidableEq, Repr

/-- The destination register number. -/
def Instr.vd : Instr → VRNum
  | .vsldoi vd _ _ _ => vd
  | .vsldoi128 vd _ _ _ => vd

/-- The number of source register A. -/
def Instr.va : Instr → VRNum
  | .vsldoi _ va _ _ => va
  | .vsldoi128 _ va _ _ => va

/-- The number of source register B. -/
def Instr.vb : Instr → VRNum
  | .vsldoi _ _ vb _ => vb
  | .vsldoi128 _ _ vb _ => vb

/-- The shift amount in bytes. -/
def Instr.shb : Instr → Shb
  | .vsldoi _ _ _ shb => shb
  | .vsldoi128 _ _ _ shb => shb

/-- The two entries of the mnemonic table (30_encoding.md R54). -/
inductive Mnemonic where
  | vsldoi
  | vsldoi128
  deriving DecidableEq, Repr

/-- One line of assembler: a mnemonic and four numbers, in the order VD, VA, VB, SHB (30_encoding.md R52, R53). -/
structure AsmLine where
  mnemonic : Mnemonic
  vd : Nat
  va : Nat
  vb : Nat
  shb : Nat
  deriving DecidableEq, Repr

end Sys2Proof
end

