-- ==== Sys2Proof/WellFormed.lean ====
section
/-! DEFINITION. Which instructions have an encoding, and which assembler lines an assembler accepts. -/

namespace Sys2Proof

/-- The registers `vsldoi` can name are 0 to 31; every `vsldoi128` operand is encodable
(30_encoding.md R40, R43 to R46, R52, R53). -/
def Instr.wf : Instr → Bool
  | .vsldoi vd va vb _ => decide (vd.toNat < 32 ∧ va.toNat < 32 ∧ vb.toNat < 32)
  | .vsldoi128 _ _ _ _ => true

/-- The instruction has an encoding. -/
abbrev WellFormed (i : Instr) : Prop := i.wf = true

/-- How many registers a mnemonic's operands can name (30_encoding.md R52, R53). -/
def Mnemonic.registers : Mnemonic → Nat
  | .vsldoi => 32
  | .vsldoi128 => 128

/-- The range check of an assembler line: register numbers in the mnemonic's range, `SHB` in 0 to 15
(30_encoding.md R54, D22). -/
def AsmLine.wf (l : AsmLine) : Bool :=
  decide (l.vd < l.mnemonic.registers ∧ l.va < l.mnemonic.registers ∧ l.vb < l.mnemonic.registers ∧ l.shb < 16)

end Sys2Proof
end

