-- ==== Sys2Proof/Decode.lean ====
section
/-! DEFINITION. Decoding bytes and words, and the encoders, both from the tables of 30_encoding.md. -/

namespace Sys2Proof

/-- Why bytes spell no instruction of this spec. -/
inductive DecodeError where
  /-- Fewer than the four bytes of one word. -/
  | truncated
  /-- A `vsldoi` word with source bit 21 = 1 under `VSLDOI_BIT21 = refuse` (30_encoding.md R49). -/
  | reservedBit21
  /-- A word that matches neither pattern (30_encoding.md R50). -/
  | notInScope (w : Word)
  deriving DecidableEq, Repr

/-! ### Bytes and words -/

/-- The word of four bytes, the first the most significant (20_memory.md R26, log 12). -/
def wordOfBytes (b0 b1 b2 b3 : Byte) : Word :=
  b0.setWidth 32 <<< 24 ||| b1.setWidth 32 <<< 16 ||| b2.setWidth 32 <<< 8 ||| b3.setWidth 32

/-- The four bytes of a word at ascending addresses (20_memory.md R26). -/
def bytesOfWord (w : Word) : List Byte :=
  [w.extractLsb' 24 8, w.extractLsb' 16 8, w.extractLsb' 8 8, w.extractLsb' 0 8]

/-! ### Fields (source bit 0 is the most significant) -/

/-- `w{a:b}`: source bits `a` through `b` (00_scope.md R6). -/
def srcField (w : Word) (a b : Nat) : BitVec (b + 1 - a) := w.extractLsb' (31 - b) (b + 1 - a)

/-- Primary opcode, bits 0-5 (30_encoding.md R38, R41). -/
def fieldOPCD (w : Word) : BitVec 6 := srcField w 0 5

/-- Form `VA`, bits 6-10: destination (R38). -/
def fieldVRT (w : Word) : BitVec 5 := srcField w 6 10

/-- Form `VA`, bits 11-15: source A (R38). -/
def fieldVRA (w : Word) : BitVec 5 := srcField w 11 15

/-- Form `VA`, bits 16-20: source B (R38). -/
def fieldVRB (w : Word) : BitVec 5 := srcField w 16 20

/-- Source bit 21: read by nothing in `vsldoi` (R40, R49), `VA128H` in `vsldoi128` (R41). -/
def fieldBit21 (w : Word) : BitVec 1 := srcField w 21 21

/-- Bits 22-25: the shift amount in both forms (R40, R46; conflicts C1, C2). -/
def fieldSH (w : Word) : BitVec 4 := srcField w 22 25

/-- Form `VA`, bits 26-31: extended opcode (R38). -/
def fieldXO (w : Word) : BitVec 6 := srcField w 26 31

/-- Form `VX128_5`, bit 26: source A middle bit (R41). -/
def fieldVA128h (w : Word) : BitVec 1 := srcField w 26 26

/-- Form `VX128_5`, bit 27: the extended-opcode bit (R42; DEDUCED, conflict C3, log 15). -/
def fieldBit27 (w : Word) : BitVec 1 := srcField w 27 27

/-- Form `VX128_5`, bits 28-29: destination high 2 bits (R41). -/
def fieldVD128h (w : Word) : BitVec 2 := srcField w 28 29

/-- Form `VX128_5`, bits 30-31: source B high 2 bits (R41). -/
def fieldVB128h (w : Word) : BitVec 2 := srcField w 30 31

/-! ### Decoding -/

/-- A 5-bit register field of form `VA` as a register number (R40). -/
def reg5 (f : BitVec 5) : VRNum := f.setWidth 7

/-- Two high bits and five low bits as a register number: `high * 32 + low` (R43, R45). -/
def reg7 (high : BitVec 2) (low : BitVec 5) : VRNum := high.setWidth 7 <<< 5 ||| low.setWidth 7

/-- The operands of `vsldoi` (R40). -/
def decodeVsldoi (w : Word) : Instr :=
  .vsldoi (reg5 (fieldVRT w)) (reg5 (fieldVRA w)) (reg5 (fieldVRB w)) (fieldSH w)

/-- `VA` of `vsldoi128`: `VA128H * 64 + VA128h * 32 + VA128l` (R44). -/
def regA128 (w : Word) : VRNum :=
  (fieldBit21 w).setWidth 7 <<< 6 ||| (fieldVA128h w).setWidth 7 <<< 5 ||| (fieldVRA w).setWidth 7

/-- The operands of `vsldoi128` (R43, R44, R45, R46). The low five bits of each register number lie where form `VA`
has its register fields. -/
def decodeVsldoi128 (w : Word) : Instr :=
  .vsldoi128 (reg7 (fieldVD128h w) (fieldVRT w)) (regA128 w) (reg7 (fieldVB128h w) (fieldVRB w)) (fieldSH w)

/-- Decoding a word (R48), with `VSLDOI_BIT21` (R49) and the refusal of every other word (R50). -/
def decodeWord (p : Bit21) (w : Word) : Except DecodeError Instr :=
  if fieldOPCD w = 4 ∧ fieldXO w = 44 then
    if p = .refuse ∧ fieldBit21 w = 1 then .error .reservedBit21 else .ok (decodeVsldoi w)
  else if fieldOPCD w = 4 ∧ fieldBit27 w = 1 then .ok (decodeVsldoi128 w)
  else .error (.notInScope w)

/-- Decoding bytes at ascending addresses: the instruction and the bytes after it (R37: every instruction is 4
bytes). Total on any bytes. -/
def decode (p : Bit21) : List Byte → Except DecodeError (Instr × List Byte)
  | b0 :: b1 :: b2 :: b3 :: rest =>
    match decodeWord p (wordOfBytes b0 b1 b2 b3) with
    | .ok i => .ok (i, rest)
    | .error e => .error e
  | _ => .error .truncated

/-! ### Encoding -/

/-- `enc_vsldoi` and `enc_vsldoi128` (R47); source bit 21 of `vsldoi` is written as 0. It is the instruction's
encoding when the instruction is well-formed. -/
def encode : Instr → Word
  | .vsldoi vd va vb shb =>
    0x1000002C#32 ||| vd.setWidth 32 <<< 21 ||| va.setWidth 32 <<< 16 ||| vb.setWidth 32 <<< 11 |||
      shb.setWidth 32 <<< 6
  | .vsldoi128 vd va vb shb =>
    0x10000010#32 ||| (vd.setWidth 32 &&& 31) <<< 21 ||| (va.setWidth 32 &&& 31) <<< 16 |||
      (vb.setWidth 32 &&& 31) <<< 11 ||| ((va.setWidth 32 >>> 6) &&& 1) <<< 10 ||| shb.setWidth 32 <<< 6 |||
      ((va.setWidth 32 >>> 5) &&& 1) <<< 5 ||| ((vd.setWidth 32 >>> 5) &&& 3) <<< 2 |||
      ((vb.setWidth 32 >>> 5) &&& 3)

/-- The bytes of an instruction at ascending addresses. -/
def encodeBytes (i : Instr) : List Byte := bytesOfWord (encode i)

/-- The instruction an assembler line spells, or none where an operand is out of range (R54). -/
def AsmLine.instr (l : AsmLine) : Option Instr :=
  if l.wf then
    match l.mnemonic with
    | .vsldoi => some (.vsldoi (.ofNat 7 l.vd) (.ofNat 7 l.va) (.ofNat 7 l.vb) (.ofNat 4 l.shb))
    | .vsldoi128 => some (.vsldoi128 (.ofNat 7 l.vd) (.ofNat 7 l.va) (.ofNat 7 l.vb) (.ofNat 4 l.shb))
  else none

/-- The word an assembler produces for a line, or none (R52, R53, R54). -/
def assemble (l : AsmLine) : Option Word :=
  match l.instr with
  | some i => some (encode i)
  | none => none

/-! ### The opcode table's words -/

/-- The instruction the decoder reads from a word numbered as spec/opcode_table.json numbers it, under the default
`VSLDOI_BIT21 = refuse`. Both rows have 32 bits, one big-endian word; the bits of `w` above `nbits` are dropped. -/
def decodeTableWord (nbits w : Nat) : Option Instr :=
  match decode .refuse (bytesOfWord (BitVec.ofNat 32 (w % 2 ^ nbits))) with
  | .ok (i, _) => some i
  | .error _ => none

end Sys2Proof
end

