-- ==== Sys2Proof/Machine/State.lean ====
section
/-! DEFINITION. The state of the machine, its faults and refusals, and the state after reset.
State is plain data and holds every piece of state the spec names (10_state.md R13, R17, R19; 70_reset_and_hazards.md
R77), the program text and the parameters of the run (10_state.md R22, log 3). -/

namespace Sys2Proof.Machine

/-- The launch premises, each by its name (70_reset_and_hazards.md R78). -/
inductive Premise where
  /-- `PROGRAM_BASE mod 4 = 0`. -/
  | alignedBase
  /-- `pc mod 4 = 0`. -/
  | alignedPc
  /-- `PROGRAM_BASE + 4*L < 2^PC_BITS`. -/
  | textFits
  /-- `PROGRAM_BASE <= pc <= PROGRAM_BASE + 4*L`. -/
  | pcInText
  /-- `VEC_AVAILABLE`: the vector facility is enabled. -/
  | vecAvailable
  /-- No fault or refusal is recorded. -/
  | noFault
  /-- The host delivers no interrupt during the run. -/
  | noInterrupts
  deriving DecidableEq, Repr

/-- The one fault of the spec (00_scope.md R10). -/
inductive Fault where
  /-- `fault(UnwrittenVR n)`: raised by `vsldoi` and `vsldoi128` when a source register is unwritten
  (10_state.md R16). Safe: the model stops where a chip would go on. No run from `State.reset` raises it (log 2). -/
  | unwrittenVR (n : VRNum)
  deriving DecidableEq, Repr

/-- Why a step has no meaning. Every one is safe: no claim can be proved about such a step going on. -/
inductive Refusal where
  /-- Raised by `exec` for an instruction that has no meaning yet. Safe. -/
  | notModelled (mnemonic : String)
  /-- Raised by the step for a word that matches neither pattern (30_encoding.md R50, D4). Safe. -/
  | notInScope (w : Word)
  /-- Raised by the step for a `vsldoi` word with source bit 21 = 1 under `VSLDOI_BIT21 = refuse`
  (30_encoding.md R49, D5). Safe. -/
  | reservedBit21
  /-- Raised by the step for a fetch from an address outside the program text (20_memory.md R30, D18). Safe. -/
  | fetchOutsideText
  /-- Raised by the step when `pc + 4` does not fit in `PC_BITS` bits (10_state.md R18, D2). Safe. -/
  | pcOverflow
  /-- Raised by the launch, and by the step for `alignedPc` and the premises that stand during the whole run
  (70_reset_and_hazards.md R78, R79; log 8). Safe. -/
  | premise (p : Premise)
  /-- Raised by the step when the run is over: there is no step (70_reset_and_hazards.md R79 item 1, R80; log 7).
  It is no refusal of the spec and is never recorded. Safe. -/
  | runOver
  deriving DecidableEq, Repr

/-- A recorded stop: a fault or a refusal (70_reset_and_hazards.md R77, R79). -/
inductive Stop where
  | fault (f : Fault)
  | refusal (r : Refusal)
  deriving DecidableEq, Repr

/-- A vector register (10_state.md R13, R16). `unwritten` is the spec's own state of a register, not a missing reset
value: a launch decides which registers are in it, and `State.reset` leaves none in it (logs 1 and 2). -/
inductive VReg where
  /-- Nothing has written the register since the launch: it holds no value. -/
  | unwritten
  /-- The register holds 16 bytes. -/
  | holds (v : Vec)
  deriving DecidableEq, Repr

/-- A byte memory: the listed cells by strictly rising address. An unlisted address holds no value (log 11). -/
abbrev Memory := List Host.Cell

/-- Registers known only by a number: (number, contents), unlisted contents being 0. Neither a count nor a width is
in the source (10_state.md R19, log 10). -/
abbrev NumberedRegs := List (Nat × Nat)

/-- The state the source names and the two instructions leave alone (10_state.md R19). Widths and layouts are not in
the source: contents are numbers of no stated width (log 10). -/
structure Untouched where
  /-- `ctx.gpr[N]`, C name `r[N]`. -/
  gpr : NumberedRegs
  /-- `f[]`. -/
  fpr : NumberedRegs
  /-- CR by its fields `fld`. -/
  cr : NumberedRegs
  /-- XER field `CA`. -/
  xerCa : Bool
  /-- XER field `OV`. -/
  xerOv : Bool
  /-- XER field `SO`. -/
  xerSo : Bool
  /-- VSCR. -/
  vscr : Nat
  /-- The data memory behind `mem.read_u*` and `write_u*` (20_memory.md R25, R29). -/
  dataMem : Memory
  deriving DecidableEq, Repr

/-- `Untouched` with every register 0, every flag clear and nothing listed in memory (log 10). -/
def Untouched.zero : Untouched where
  gpr := []
  fpr := []
  cr := []
  xerCa := false
  xerOv := false
  xerSo := false
  vscr := 0
  dataMem := []

/-- The state of the machine. -/
structure State where
  /-- The vector register file `VR`, `NVR` = 128 registers (10_state.md R13, R14). -/
  vr : Vector VReg 128
  /-- The program counter (10_state.md R17, R18). -/
  pc : Addr
  /-- The record of a fault or refusal (70_reset_and_hazards.md R77). -/
  record : Option Stop
  /-- The program text by byte address (20_memory.md R29). -/
  text : Memory
  /-- `L`, the number of words of the program text (20_memory.md R29, R30). -/
  textLen : Nat
  /-- The parameters of the run (00_scope.md R5). -/
  params : Params
  /-- The state named by the source only (10_state.md R19). -/
  other : Untouched
  deriving DecidableEq, Repr

/-- The machine right after reset, as a launch of 70_reset_and_hazards.md R77 with the empty program: the pc at
PROGRAM_BASE (10_state.md R24), and the premises NoFault (nothing recorded), VEC_AVAILABLE and NoInterrupts of R78
holding (decisions of the spec, D8 and D10; logs 16 and 17). The spec gives no value to any vector register
(R75): that each is written and holds zero is a DESIGN CHOICE, unsafe (log 1), as are the values of `other`
(log 10). -/
def State.reset : State where
  vr := Vector.replicate 128 (.holds Vec.zero)
  pc := Params.standard.programBase
  record := none
  text := []
  textLen := 0
  params := Params.standard
  other := Untouched.zero

end Sys2Proof.Machine
end

