-- ==== Sys2Proof/Machine/Ops.lean ====
section
/-! DEFINITION. The named operations over memory and registers (00_scope.md R9). Nothing here takes an exception: the
spec has no trap entry and no return from one (60_exceptions.md R69, R70). -/

namespace Sys2Proof.Machine

/-! ### Byte memory -/

/-- The byte at an address; none where nothing is listed (log 11). -/
def Memory.read : Memory → Nat → Option Byte
  | [], _ => none
  | (b, v) :: m, a => if a = b then some v else Memory.read m a

/-- Writing one byte, keeping addresses strictly rising. -/
def Memory.write : Memory → Nat → Byte → Memory
  | [], a, v => [(a, v)]
  | (b, w) :: m, a, v =>
    if a < b then (a, v) :: (b, w) :: m
    else if a = b then (a, v) :: m
    else (b, w) :: Memory.write m a v

/-- The canonical form: addresses strictly rising. An unlisted address holds no value, so no entry can equal what an
unlisted address reads as. -/
abbrev Memory.wf (m : Memory) : Prop := m.Pairwise fun x y => x.1 < y.1

/-- `n` bytes at ascending addresses; none if one of them is not listed. -/
def Memory.readBytes (m : Memory) (a : Nat) : Nat → Option (List Byte)
  | 0 => some []
  | n + 1 =>
    match m.read a, Memory.readBytes m (a + 1) n with
    | some b, some bs => some (b :: bs)
    | _, _ => none

/-- Bytes written at ascending addresses. -/
def Memory.writeBytes (m : Memory) (a : Nat) : List Byte → Memory
  | [] => m
  | b :: bs => Memory.writeBytes (m.write a b) (a + 1) bs

/-- The number of bytes at ascending addresses, the first the most significant (20_memory.md R25). -/
def numOfBytes (bs : List Byte) : Nat := bs.foldl (fun n b => n * 256 + b.toNat) 0

/-- The `n` bytes of a number, the most significant first (20_memory.md R25). -/
def bytesOfNum : Nat → Nat → List Byte
  | 0, _ => []
  | n + 1, v => BitVec.ofNat 8 (v / 256 ^ n) :: bytesOfNum n v

/-! ### The program text -/

/-- The program text of a list of words, laid out big-endian from an address (70_reset_and_hazards.md R77). -/
def layWords : Nat → List Word → Memory
  | _, [] => []
  | a, w :: ws =>
    (a, w.extractLsb' 24 8) :: (a + 1, w.extractLsb' 16 8) :: (a + 2, w.extractLsb' 8 8) ::
      (a + 3, w.extractLsb' 0 8) :: layWords (a + 4) ws

/-- `PROGRAM_BASE` as a number. -/
def base (s : State) : Nat := s.params.programBase.toNat

/-- `PROGRAM_BASE + 4*L`, the address just past the text (20_memory.md R30). -/
def textEnd (s : State) : Nat := base s + 4 * s.textLen

/-! ### Vector registers and pc -/

/-- `VR[n]` (00_scope.md R9). Every 7-bit number is in the file (10_state.md R14). -/
def readVR (s : State) (n : VRNum) : VReg := s.vr[n.toNat]'(n.isLt)

/-- `VR[n] <- v`: all 16 bytes are written (10_state.md R15). -/
def writeVR (s : State) (n : VRNum) (v : Vec) : State :=
  { s with vr := s.vr.set n.toNat (.holds v) n.isLt }

/-- `pc <- pc + 4` (10_state.md R17). -/
def advancePc (s : State) : State := { s with pc := s.pc + 4 }

/-! ### The state named by the source only (10_state.md R19)

The primitives `x[i]`, `MemRead` and `MemWrite` are defined for the notation; no instruction uses them
(00_scope.md R9). -/

/-- Contents of a numbered register, 0 where unlisted (log 10). -/
def NumberedRegs.get : NumberedRegs → Nat → Nat
  | [], _ => 0
  | (k, v) :: r, n => if n = k then v else NumberedRegs.get r n

/-- `x[i]`: a general register. -/
def readGpr (s : State) (i : Nat) : Nat := NumberedRegs.get s.other.gpr i

/-- A floating-point register. -/
def readFpr (s : State) (i : Nat) : Nat := NumberedRegs.get s.other.fpr i

/-- `MemRead(addr, n)` on data memory, big-endian (20_memory.md R25). -/
def memRead (s : State) (a n : Nat) : Option Nat :=
  match Memory.readBytes s.other.dataMem a n with
  | some bs => some (numOfBytes bs)
  | none => none

/-- `MemWrite(addr, n, v)` on data memory, big-endian (20_memory.md R25). -/
def memWrite (s : State) (a n v : Nat) : State :=
  { s with other := { s.other with dataMem := Memory.writeBytes s.other.dataMem a (bytesOfNum n v) } }

/-! ### The record of a stop -/

/-- Recording a fault or refusal; a record once set is never cleared or replaced (70_reset_and_hazards.md R77). -/
def recordStop (s : State) (r : Stop) : State :=
  match s.record with
  | none => { s with record := some r }
  | some _ => s

end Sys2Proof.Machine
end

