-- ==== Sys2Proof/Machine/Flags.lean ====
section
/-! DEFINITION. The flags and status registers the source names, as one view. The spec gives NO flag computation:
neither instruction reads or writes a flag, condition code or status register (10_state.md R21,
40_vector_shift_double.md R62). -/

namespace Sys2Proof.Machine

/-- CR, the XER flags and VSCR (10_state.md R19). -/
structure Status where
  cr : NumberedRegs
  ca : Bool
  ov : Bool
  so : Bool
  vscr : Nat
  deriving DecidableEq, Repr

/-- Every flag and status register of the state. -/
def statusOf (s : State) : Status where
  cr := s.other.cr
  ca := s.other.xerCa
  ov := s.other.xerOv
  so := s.other.xerSo
  vscr := s.other.vscr

end Sys2Proof.Machine
end

