-- ==== Sys2Proof/Machine/Operands.lean ====
section
/-! DEFINITION. The operand forms: two vector registers read in full, a shift immediate, and a vector value as a number
(00_scope.md R7, 10_state.md R15, 40_vector_shift_double.md R56). -/

namespace Sys2Proof.Machine

/-- Both source registers, read first and in full, `VA` before `VB`, whatever `SHB` is
(10_state.md R15, R16; 60_exceptions.md R68). -/
def readSources (s : State) (va vb : VRNum) : Except Fault (Vec × Vec) :=
  match readVR s va with
  | .unwritten => .error (.unwrittenVR va)
  | .holds a =>
    match readVR s vb with
    | .unwritten => .error (.unwrittenVR vb)
    | .holds b => .ok (a, b)

/-- `num(V)`: the value as one 128-bit unsigned number, byte 0 the most significant (00_scope.md R7). -/
def num (v : Vec) : Nat := ∑ i : Fin 16, v[i].toNat * 256 ^ (15 - i.val)

end Sys2Proof.Machine
end

