-- ==== Sys2Proof/Machine/VectorShiftDouble.lean ====
section
/-! DEFINITION. The instruction family of 40_vector_shift_double.md: `vsldoi` and `vsldoi128`. -/

namespace Sys2Proof.Machine

/-- Byte `i` of the 32-byte concatenation `A ‖ B` (00_scope.md R8). -/
def catByte (a b : Vec) (i : Nat) (h : i < 32) : Byte :=
  if ha : i < 16 then a[i] else b[i - 16]

/-- `Window(A, B, s)`: the 16 consecutive bytes of `A ‖ B` that start at byte `s` (R55). -/
def window (a b : Vec) (s : Shb) : Vec :=
  Vector.ofFn fun j : Fin 16 => catByte a b (s.toNat + j.val) (by omega)

/-- The shared effect: read both sources, write the window, advance pc (R56). -/
def shiftDouble (vd va vb : VRNum) (shb : Shb) (s : State) : Host.Outcome State Fault Refusal :=
  match readSources s va vb with
  | .error f => .fault f
  | .ok (a, b) => .next (advancePc (writeVR s vd (window a b shb)))

/-- `vsldoi VD, VA, VB, SHB` (R57). -/
def execVsldoi (vd va vb : VRNum) (shb : Shb) (s : State) : Host.Outcome State Fault Refusal :=
  shiftDouble vd va vb shb s

/-- `vsldoi128 VD, VA, VB, SHB` (R58; the clamp of R64 changes nothing, since `SHB` is at most 15). -/
def execVsldoi128 (vd va vb : VRNum) (shb : Shb) (s : State) : Host.Outcome State Fault Refusal :=
  shiftDouble vd va vb shb s

end Sys2Proof.Machine
end

