-- ==== Sys2Proof/Machine/Dispatch.lean ====
section
/-! DEFINITION. The meaning of every instruction, one arm per constructor of Instr. -/

namespace Sys2Proof.Machine

def exec (i : Instr) (s : State) : Host.Outcome State Fault Refusal :=
  match i with
  | .vsldoi vd va vb shb => Sys2Proof.Machine.execVsldoi vd va vb shb s
  | .vsldoi128 vd va vb shb => Sys2Proof.Machine.execVsldoi128 vd va vb shb s

end Sys2Proof.Machine
end

