-- ==== Sys2Proof/Machine/Fetch.lean ====
section
/-! DEFINITION. What the step does around an instruction: the premises, the end of the run, the fetch, the decode and
the range check of `pc + 4` (70_reset_and_hazards.md R78 to R80). -/

namespace Sys2Proof.Machine

/-! ### Launch premises (R78) -/

/-- Whether a premise holds of a state. -/
def holdsPremise (s : State) : Premise → Bool
  | .alignedBase => base s % 4 = 0
  | .alignedPc => s.pc.toNat % 4 = 0
  | .textFits => textEnd s < 2 ^ s.params.pcBits.width
  | .pcInText => base s ≤ s.pc.toNat && s.pc.toNat ≤ textEnd s
  | .vecAvailable => s.params.vecAvailable
  | .noFault => s.record.isNone
  | .noInterrupts => s.params.noInterrupts

/-- The premises in the order R78 lists them. -/
def launchPremises : List Premise :=
  [.alignedBase, .alignedPc, .textFits, .pcInText, .vecAvailable, .noFault, .noInterrupts]

/-- The premises that speak of the whole run and not of its first instruction: the step refuses under their names
too (R66, R67, R80; log 8). -/
def standingPremises : List Premise := [.vecAvailable, .noFault, .noInterrupts]

/-- The first of some premises that fails. -/
def failedPremise (s : State) (ps : List Premise) : Option Premise :=
  ps.find? fun p => !holdsPremise s p

/-! ### The end of the run (R80) -/

/-- The pc is the address just past the text. -/
def atEnd (s : State) : Bool := s.pc.toNat = textEnd s

/-- The run is over: at the end, with no fault or refusal recorded (R80). -/
def runOver (s : State) : Bool := atEnd s && s.record.isNone

/-! ### One step up to its instruction (R79 items 1 to 5) -/

/-- The refusals that come before the fetch, in order: a run that is over takes no step (R79 item 1, R80), then the
premises that stand during the whole run (60_exceptions.md R68), then R79 item 2. -/
def refusalBeforeFetch (s : State) : Option Refusal :=
  if runOver s then some .runOver
  else
    match failedPremise s standingPremises with
    | some p => some (.premise p)
    | none =>
      if s.pc.toNat % 4 ≠ 0 then some (.premise .alignedPc)
      else if s.pc.toNat < base s ∨ textEnd s < s.pc.toNat then some .fetchOutsideText
      else none

/-- `Fetch(pc)`: the four bytes of the text at the pc (20_memory.md R26). -/
def fetchBytes (s : State) : Option (List Byte) := s.text.readBytes s.pc.toNat 4

/-- The refusal a decode error is. The fetch gives four bytes or none, so `truncated` cannot arise in a step. -/
def refusalOfDecode : DecodeError → Refusal
  | .truncated => .fetchOutsideText
  | .reservedBit21 => .reservedBit21
  | .notInScope w => .notInScope w

/-- Fetch and decode (R79 items 3 and 4). A byte of the text that is not listed is outside it (log 11). -/
def fetchInstr (s : State) : Except Refusal Instr :=
  match fetchBytes s with
  | none => .error .fetchOutsideText
  | some bs =>
    match decode s.params.bit21 bs with
    | .ok (i, _) => .ok i
    | .error e => .error (refusalOfDecode e)

/-- `pc + 4 >= 2^PC_BITS` (R79 item 5, 10_state.md R18). -/
def pcOverflows (s : State) : Bool := 2 ^ s.params.pcBits.width ≤ s.pc.toNat + 4

/-! ### Placing an instruction from outside (log 6) -/

/-- The state with the bytes of a word stored where the next step fetches. Inside the text they replace the word at
the pc; at its end they are one more word; anywhere else they are a one-word text at the pc. -/
def placeBytes (s : State) (bs : List Byte) : State :=
  if base s ≤ s.pc.toNat ∧ s.pc.toNat < textEnd s then
    { s with text := s.text.writeBytes s.pc.toNat bs }
  else if s.pc.toNat = textEnd s then
    { s with text := s.text.writeBytes s.pc.toNat bs, textLen := s.textLen + 1 }
  else
    { s with
      text := Memory.writeBytes [] s.pc.toNat bs
      textLen := 1
      params := { s.params with programBase := s.pc } }

end Sys2Proof.Machine
end

