-- ==== Sys2Proof/Machine/Step.lean ====
section
/-! DEFINITION. One step of the machine (70_reset_and_hazards.md R79). -/

namespace Sys2Proof.Machine

/-- One step: the refusals before the fetch, fetch and decode, the range check of `pc + 4`, the instruction (R79). -/
def step (s : State) : Host.Outcome State Fault Refusal :=
  match refusalBeforeFetch s with
  | some r => .refused r
  | none =>
    match fetchInstr s with
    | .error r => .refused r
    | .ok i => if pcOverflows s then .refused .pcOverflow else exec i s

/-- `s` with the instruction word `w` (its bits above `nbits` zero) where the next step fetches (log 6). -/
def State.withFetchWord (s : State) (nbits w : Nat) : State :=
  placeBytes s (bytesOfWord (BitVec.ofNat 32 (w % 2 ^ nbits)))

end Sys2Proof.Machine
end

