-- ==== Sys2Proof/Machine/Run.lean ====
section
/-! DEFINITION. The state a step leaves when it stops, and the launch of a run (70_reset_and_hazards.md R77, R79). -/

namespace Sys2Proof.Machine

/-- The state after a step, a stop included: a fault or refusal leaves the registers and pc as they were and records
itself (R79); a run that is over takes no step (R80). -/
def stepRecorded (s : State) : State :=
  match step s with
  | .next t => t
  | .fault f => recordStop s (.fault f)
  | .refused .runOver => s
  | .refused r => recordStop s (.refusal r)

/-- A launch (R77). -/
structure Launch where
  /-- The program text, a list of `L` words. -/
  text : List Word
  /-- The parameters of 00_scope.md R5. -/
  params : Params
  /-- The initial pc; none is the default, PROGRAM_BASE. -/
  pc : Option Addr
  /-- The initial vector registers: those in the partial map hold a value, the rest are unwritten. -/
  vr : Vector VReg 128
  /-- The state named by the source only, not described by it (10_state.md R19). -/
  other : Untouched
  /-- A fault or refusal already recorded; the premise NoFault asks for none. -/
  record : Option Stop
  deriving DecidableEq, Repr

/-- The state a launch starts in. -/
def Launch.state (l : Launch) : State where
  vr := l.vr
  pc := l.pc.getD l.params.programBase
  record := l.record
  text := layWords l.params.programBase.toNat l.text
  textLen := l.text.length
  params := l.params
  other := l.other

/-- Starting a run: a launch that fails a premise is refused with its name before any step (R78). Where several fail,
the first in R78's order is named (log 8). -/
def launch (l : Launch) : Host.Outcome State Fault Refusal :=
  match failedPremise l.state launchPremises with
  | some p => .refused (.premise p)
  | none => .next l.state

end Sys2Proof.Machine
end

