-- ==== Sys2Proof/Safety.lean ====
section
/-! DEFINITION. What counts as a safe run, in the terms the claims use. -/

namespace Sys2Proof.Machine

/-- The text is laid out whole: the listed addresses are exactly those of its `4*L` bytes (20_memory.md R29). -/
def TextLaid (s : State) : Prop := s.text.map Prod.fst = List.range' (base s) (4 * s.textLen)

/-- What holds at every state of a run, as the launch premises of 70_reset_and_hazards.md R78 say of the text and the
pc: the base and pc aligned, the text below `2^PC_BITS`, the pc in it or just past it, the text laid out whole, both
memories canonical. -/
structure RunInv (s : State) : Prop where
  alignedBase : base s % 4 = 0
  alignedPc : s.pc.toNat % 4 = 0
  textFits : textEnd s < 2 ^ s.params.pcBits.width
  pcFromBase : base s ≤ s.pc.toNat
  pcToEnd : s.pc.toNat ≤ textEnd s
  textLaid : TextLaid s
  textWf : Memory.wf s.text
  dataWf : Memory.wf s.other.dataMem

/-- The premises that stand during the whole run (R78: VEC_AVAILABLE, NoFault, NoInterrupts). -/
structure Standing (s : State) : Prop where
  vec : s.params.vecAvailable = true
  noFault : s.record = none
  noInterrupts : s.params.noInterrupts = true

/-- What `vsldoi` and `vsldoi128` with destination `vd` leave unchanged: everything but `VR[vd]` and the pc
(10_state.md R20). Memory is compared byte by byte. -/
structure Unchanged (s t : State) (vd : VRNum) : Prop where
  regs : ∀ n, n ≠ vd → readVR t n = readVR s n
  status : statusOf t = statusOf s
  gpr : ∀ n, readGpr t n = readGpr s n
  fpr : ∀ n, readFpr t n = readFpr s n
  dataBytes : ∀ a, t.other.dataMem.read a = s.other.dataMem.read a
  textBytes : ∀ a, t.text.read a = s.text.read a
  textLen : t.textLen = s.textLen
  params : t.params = s.params
  record : t.record = s.record

/-- What a launch premise says of a launch (70_reset_and_hazards.md R78). -/
def LaunchPremise (l : Launch) : Premise → Prop
  | .alignedBase => l.params.programBase.toNat % 4 = 0
  | .alignedPc => (l.pc.getD l.params.programBase).toNat % 4 = 0
  | .textFits => l.params.programBase.toNat + 4 * l.text.length < 2 ^ l.params.pcBits.width
  | .pcInText => l.params.programBase.toNat ≤ (l.pc.getD l.params.programBase).toNat ∧
      (l.pc.getD l.params.programBase).toNat ≤ l.params.programBase.toNat + 4 * l.text.length
  | .vecAvailable => l.params.vecAvailable = true
  | .noFault => l.record = none
  | .noInterrupts => l.params.noInterrupts = true

/-- A register holds a value. -/
def Written (s : State) (n : VRNum) : Prop := ∃ v, readVR s n = .holds v

/-- Every vector register holds a value, as after `State.reset` (log 1). -/
def AllWritten (s : State) : Prop := ∀ n, Written s n

end Sys2Proof.Machine
end

