-- ==== Sys2Proof/Certificates/Slice0/Obligations.lean ====
section
/-! DEFINITION. The statements for the provers. Each docstring says which statement of spec/ it formalises. -/

open Sys2Proof Sys2Proof.Machine

/-! ## Encoding -/

/-- 30_encoding.md section 2 with 20_memory.md section 1: the bytes of a well-formed instruction decode to it,
whatever VSLDOI_BIT21 is and whatever bytes follow. -/
def Obligations.DecodeInvertsEncode : Prop :=
  ∀ (i : Instr) (p : Bit21) (rest : List Byte), WellFormed i → decode p (encodeBytes i ++ rest) = .ok (i, rest)

/-- 30_encoding.md section 2 (R47, which the spec marks as derived): the two encoding functions, that decoding returns
the four operands, and that every `vsldoi128` word, and every `vsldoi` word with bit 21 = 0, is the encoding of its
operands. -/
def Obligations.EncodingFunctions : Prop :=
  (∀ vd va vb shb, WellFormed (.vsldoi vd va vb shb) →
    (encode (.vsldoi vd va vb shb)).toNat =
      0x1000002C ||| (vd.toNat <<< 21) ||| (va.toNat <<< 16) ||| (vb.toNat <<< 11) ||| (shb.toNat <<< 6)) ∧
  (∀ vd va vb shb,
    (encode (.vsldoi128 vd va vb shb)).toNat =
      0x10000010 ||| ((vd.toNat &&& 31) <<< 21) ||| ((va.toNat &&& 31) <<< 16) ||| ((vb.toNat &&& 31) <<< 11) |||
        (((va.toNat >>> 6) &&& 1) <<< 10) ||| (shb.toNat <<< 6) ||| (((va.toNat >>> 5) &&& 1) <<< 5) |||
        (((vd.toNat >>> 5) &&& 3) <<< 2) ||| ((vb.toNat >>> 5) &&& 3)) ∧
  (∀ i p, WellFormed i → decodeWord p (encode i) = .ok i) ∧
  (∀ p (w : Word), w &&& 0xFC000010 = 0x10000010 →
    ∃ vd va vb shb, decodeWord p w = .ok (.vsldoi128 vd va vb shb) ∧ encode (.vsldoi128 vd va vb shb) = w) ∧
  (∀ p (w : Word), w &&& 0xFC00003F = 0x1000002C → (w >>> 10) &&& 1 = 0 →
    ∃ vd va vb shb, decodeWord p w = .ok (.vsldoi vd va vb shb) ∧ encode (.vsldoi vd va vb shb) = w)

/-- 30_encoding.md sections 1, 3 and 4 (R48 and R42 are marked as derived, R49 and R50 as decisions D5 and D4; logs 13
and 15), in match and mask and shift-and-mask forms: which words are which instruction, with which operands, what bit
21 does, that every other word is not in scope, and that no word matches both patterns. -/
def Obligations.DecodingByMatchAndMask : Prop :=
  (∀ (p : Bit21) (w : Word),
    decodeWord p w =
      let n := w.toNat
      if n &&& 0xFC00003F = 0x1000002C then
        if p = .refuse ∧ (n >>> 10) &&& 1 = 1 then .error .reservedBit21
        else .ok (.vsldoi (.ofNat 7 ((n >>> 21) &&& 0x1F)) (.ofNat 7 ((n >>> 16) &&& 0x1F))
          (.ofNat 7 ((n >>> 11) &&& 0x1F)) (.ofNat 4 ((n >>> 6) &&& 0xF)))
      else if n &&& 0xFC000010 = 0x10000010 then
        .ok (.vsldoi128 (.ofNat 7 ((((n >>> 2) &&& 3) <<< 5) ||| ((n >>> 21) &&& 0x1F)))
          (.ofNat 7 ((((n >>> 10) &&& 1) <<< 6) ||| (((n >>> 5) &&& 1) <<< 5) ||| ((n >>> 16) &&& 0x1F)))
          (.ofNat 7 (((n &&& 3) <<< 5) ||| ((n >>> 11) &&& 0x1F)))
          (.ofNat 4 ((n >>> 6) &&& 0xF)))
      else .error (.notInScope w)) ∧
  ∀ w : Word, ¬(w &&& 0xFC00003F = 0x1000002C ∧ w &&& 0xFC000010 = 0x10000010)

/-- 30_encoding.md section 1 (R43 to R46): how the operands of `vsldoi128` are put together from the word's bits, by
their weights. The rules read them off the field table, the accessors' text being absent (R46, N4; DEDUCED, log 22);
which words are `vsldoi128` rests on bit 27 (R42, C3; DEDUCED, log 15). -/
def Obligations.Vsldoi128OperandFields : Prop :=
  ∀ (p : Bit21) (w : Word) (vd va vb : VRNum) (shb : Shb), decodeWord p w = .ok (.vsldoi128 vd va vb shb) →
    vd.toNat = (srcField w 28 29).toNat * 32 + (srcField w 6 10).toNat ∧
    va.toNat = (srcField w 21 21).toNat * 64 + (srcField w 26 26).toNat * 32 + (srcField w 11 15).toNat ∧
    vb.toNat = (srcField w 30 31).toNat * 32 + (srcField w 16 20).toNat ∧
    shb = srcField w 22 25

/-- R37: every instruction is one 32-bit word with primary opcode 4, and pc advances by 4 after it. -/
def Obligations.EveryInstructionIsOneWord : Prop :=
  ∀ (p : Bit21) (bs rest : List Byte) (i : Instr), decode p bs = .ok (i, rest) →
    (∃ w, bs = bytesOfWord w ++ rest ∧ srcField w 0 5 = 4#6) ∧
    ∀ s t, exec i s = .next t → t.pc = s.pc + 4

/-- 10_state.md section 1 (R14, which the spec marks as derived and as decision D6; log 14): `vsldoi` reaches
registers 0 to 31 only and `vsldoi128` reaches all of 0 to 127, and a value written by either is read back by the
other under the same number. -/
def Obligations.OneSharedRegisterFile : Prop :=
  (∀ p w vd va vb shb, decodeWord p w = .ok (.vsldoi vd va vb shb) →
    vd.toNat ≤ 31 ∧ va.toNat ≤ 31 ∧ vb.toNat ≤ 31) ∧
  (∀ vd va vb : VRNum, vd.toNat ≤ 31 → va.toNat ≤ 31 → vb.toNat ≤ 31 →
    ∃ w, ∀ p, decodeWord p w = .ok (.vsldoi vd va vb 0)) ∧
  (∀ vd va vb : VRNum, ∃ w, ∀ p, decodeWord p w = .ok (.vsldoi128 vd va vb 0)) ∧
  (∀ (i j : Instr) (s t : State) (v : Vec), exec i s = .next t → readVR t i.vd = .holds v →
    j.va = i.vd → Written t j.vb → j.shb = 0 → ∃ u, exec j t = .next u ∧ readVR u j.vd = .holds v)

/-- 30_encoding.md section 5 (R52, R53, R54): a line with an operand out of range is rejected, any other is assembled
to a word that decodes to the line's mnemonic and operands. -/
def Obligations.AssemblerRanges : Prop :=
  ∀ l : AsmLine,
    let bound := match l.mnemonic with
      | .vsldoi => 31
      | .vsldoi128 => 127
    if l.vd ≤ bound ∧ l.va ≤ bound ∧ l.vb ≤ bound ∧ l.shb ≤ 15 then
      ∃ w i, assemble l = some w ∧ (∀ p, decodeWord p w = .ok i) ∧
        (l.mnemonic = .vsldoi ↔ ∃ vd va vb shb, i = .vsldoi vd va vb shb) ∧
        i.vd.toNat = l.vd ∧ i.va.toNat = l.va ∧ i.vb.toNat = l.vb ∧ i.shb.toNat = l.shb
    else assemble l = none

/-- 95_test_vectors.md V5, V6 and V7: some words of the spec's tables and what they decode to, under
VSLDOI_BIT21 = refuse, the value `decodeTableWord` takes. That `0x1061156C` decodes to nothing holds under `refuse`
only (R49, decision D5, log 13: under `ignore` V7 makes it `vsldoi v3, v1, v2, 5`); that `0x1000002D` decodes to
nothing is decision D4 (R50, log 20); that bit 27 selects `vsldoi128` is an inference (R42, log 15). -/
def Obligations.SampleWordsDecode : Prop :=
  decodeTableWord 32 0x1000002C = some (.vsldoi 0 0 0 0) ∧
  decodeTableWord 32 0x1154F1EC = some (.vsldoi 10 20 30 7) ∧
  decodeTableWord 32 0x10000010 = some (.vsldoi128 0 0 0 0) ∧
  decodeTableWord 32 0x1080FE5F = some (.vsldoi128 100 64 127 9) ∧
  decodeTableWord 32 0x101FFE1C = some (.vsldoi128 96 95 31 8) ∧
  decodeTableWord 32 0x1061156C = none ∧
  decodeTableWord 32 0x1000002D = none

/-! ## The window -/

/-- R55: byte `j` of `Window(A, B, s)`, and the same window as 16 consecutive bytes of the concatenation. -/
def Obligations.WindowIsSixteenBytesOfConcatenation : Prop :=
  ∀ (a b : Vec) (s : Shb),
    (∀ j : Fin 16, ∀ h : s.toNat + j.val ≤ 15, (window a b s)[j] = a[s.toNat + j.val]) ∧
    (∀ j : Fin 16, ∀ h : 16 ≤ s.toNat + j.val, (window a b s)[j] = b[s.toNat + j.val - 16]) ∧
    (window a b s).toList = ((a.toList ++ b.toList).drop s.toNat).take 16 ∧
    (window a b s).toList.take (16 - s.toNat) = a.toList.drop s.toNat ∧
    (window a b s).toList.drop (16 - s.toNat) = b.toList.take s.toNat

/-- R60: the window as shifts of 128-bit numbers, as a bit field of the 256-bit concatenation, and that the two parts
of the `|` never overlap. -/
def Obligations.WindowAsShiftedNumbers : Prop :=
  ∀ (va vb : Vec) (shb : Shb),
    let a := num va
    let b := num vb
    let n := 8 * shb.toNat
    let c := a * 2 ^ 128 + b
    num (window va vb shb) = ((a <<< n) % 2 ^ 128) ||| (b >>> (128 - n)) ∧
    num (window va vb shb) = ((a <<< n) % 2 ^ 128) + (b >>> (128 - n)) ∧
    num (window va vb shb) = (c >>> (128 - n)) % 2 ^ 128 ∧
    ((a <<< n) % 2 ^ 128) % 2 ^ n = 0 ∧ b >>> (128 - n) < 2 ^ n

/-- 40_vector_shift_double.md section 4, laws 1 and 2: a shift by 0 is `A`; of a value with itself it is a rotation
left, and rotations compose modulo 16. -/
def Obligations.WindowRotates : Prop :=
  (∀ a b : Vec, window a b 0 = a) ∧
  (∀ (x : Vec) (s : Shb) (j : Fin 16), (window x x s)[j] = x[(s.toNat + j.val) % 16]'(Nat.mod_lt _ (by decide))) ∧
  (∀ (x : Vec) (s t : Shb), window (window x x s) (window x x s) t = window x x (s + t)) ∧
  (∀ (x : Vec) (s : Shb), window (window x x s) (window x x s) (-s) = x)

/-- 40_vector_shift_double.md section 4, laws 3 and 4: zero fill from either side, and the split of the window into
two numbers with no one-bit in common. -/
def Obligations.WindowFillsWithZero : Prop :=
  ∀ (a b : Vec) (s : Shb),
    num (window a Vec.zero s) = (num a * 256 ^ s.toNat) % 2 ^ 128 ∧
    num (window Vec.zero b s) = num b / 256 ^ (16 - s.toNat) ∧
    num (window a b s) = num (window a Vec.zero s) + num (window Vec.zero b s) ∧
    num (window a Vec.zero s) &&& num (window Vec.zero b s) = 0

/-- 40_vector_shift_double.md section 4, law 5: a source byte `A.byte[i]` with `i >= s` or `B.byte[i]` with `i < s`
appears at exactly one place of the result, and the other source bytes appear at none. -/
def Obligations.EverySourceByteOnceOrNever : Prop :=
  ∀ (s : Shb) (i : Fin 16),
    if s.toNat ≤ i.val then
      (∃! j : Fin 16, ∀ a b : Vec, (window a b s)[j] = a[i]) ∧ ¬∃ j : Fin 16, ∀ a b : Vec, (window a b s)[j] = b[i]
    else
      (∃! j : Fin 16, ∀ a b : Vec, (window a b s)[j] = b[i]) ∧ ¬∃ j : Fin 16, ∀ a b : Vec, (window a b s)[j] = a[i]

/-- 40_vector_shift_double.md section 3 (R59, which the spec marks as derived): the rows of the corner case table for
`SHB` = 15 and 8, and that the last byte of `B` never reaches a result. -/
def Obligations.CornerCases : Prop :=
  (∀ a b : Vec, (window a b 15).toList = a.toList.drop 15 ++ b.toList.take 15) ∧
  (∀ a b : Vec, (window a b 8).toList = a.toList.drop 8 ++ b.toList.take 8) ∧
  (∀ (a b : Vec) (s : Shb) (x : Byte), window a (b.set 15 x) s = window a b s)

/-- 40_vector_shift_double.md section 7 (R64): the clamp of the `vsldoi128` body never changes the shift, and both
bodies compute the same function of their operands. That the clamp is dead rests on the accessor of the shift, whose
text is not in the source, returning the 4-bit field (R64's last sentence, C4; DEDUCED, log 23). That the two agree on
registers above 31 too, which no `vsldoi` word names, is the model's choice (DESIGN CHOICE, log 21). -/
def Obligations.ClampIsDeadAndBodiesAgree : Prop :=
  (∀ shb : Shb, min shb.toNat 16 = shb.toNat) ∧
  ∀ vd va vb shb s, exec (.vsldoi vd va vb shb) s = exec (.vsldoi128 vd va vb shb) s

/-! ## The two instructions -/

/-- 40_vector_shift_double.md section 2 (R57). `vsldoi` completes on every state whose two sources hold values: `VR[VD]` gets the window of the OLD source
values, pc advances by 4, no flag, memory or other register changes. Its words are those of R39 with bit 21 as R49
allows it (with `ignore` by decision D5, log 13), its operands those of R40, the fields of the source's table (DEDUCED,
log 22). An unwritten source is the fault of R16, `VA` before `VB` (decision D7, log 2). That a term with a register
above 31, which no word encodes, completes in the same way is the model's choice (log 21). The last clause is the rule's
worked example, which the spec marks as derived. -/
def Obligations.VsldoiExecutes : Prop :=
  (∀ (s : State) (vd va vb : VRNum) (shb : Shb) (a b : Vec),
    readVR s va = .holds a → readVR s vb = .holds b →
    ∃ t, exec (.vsldoi vd va vb shb) s = .next t ∧ readVR t vd = .holds (window a b shb) ∧
      t.pc = s.pc + 4 ∧ Unchanged s t vd) ∧
  (∀ (s : State) (vd va vb : VRNum) (shb : Shb),
    (readVR s va = .unwritten → exec (.vsldoi vd va vb shb) s = .fault (.unwrittenVR va)) ∧
    (Written s va → readVR s vb = .unwritten → exec (.vsldoi vd va vb shb) s = .fault (.unwrittenVR vb))) ∧
  (∀ (p : Bit21) (w : Word), w &&& 0xFC00003F = 0x1000002C → (p = .ignore ∨ srcField w 21 21 = 0#1) →
    ∃ vd va vb : VRNum, decodeWord p w = .ok (.vsldoi vd va vb (srcField w 22 25)) ∧
      vd.toNat = (srcField w 6 10).toNat ∧ va.toNat = (srcField w 11 15).toNat ∧
      vb.toNat = (srcField w 16 20).toNat) ∧
  (decodeWord .refuse 0x1061116C = .ok (.vsldoi 3 1 2 5) ∧
    window #v[0x00, 0x01, 0x02, 0x03, 0x04, 0x05, 0x06, 0x07, 0x08, 0x09, 0x0A, 0x0B, 0x0C, 0x0D, 0x0E, 0x0F]
      #v[0x10, 0x11, 0x12, 0x13, 0x14, 0x15, 0x16, 0x17, 0x18, 0x19, 0x1A, 0x1B, 0x1C, 0x1D, 0x1E, 0x1F] 5 =
      #v[0x05, 0x06, 0x07, 0x08, 0x09, 0x0A, 0x0B, 0x0C, 0x0D, 0x0E, 0x0F, 0x10, 0x11, 0x12, 0x13, 0x14])

/-- 40_vector_shift_double.md section 2 (R58). `vsldoi128` completes on every state whose two sources hold values: `VR[VD]` gets the window of the OLD
source values, pc advances by 4, no flag, memory or other register changes. Its words are those of R42,
which the spec marks as derived (bit 27, C3; DEDUCED, log 15), its operands those of R43 to R46, the fields of the
source's table (DEDUCED, log 22). That registers 0 to 31 are those `vsldoi` names is R14 (decision D6; log 14). An
unwritten source is the fault of R16, `VA` before `VB` (decision D7, log 2). The last clause is the rule's worked
example, which the spec marks as derived. -/
def Obligations.Vsldoi128Executes : Prop :=
  (∀ (s : State) (vd va vb : VRNum) (shb : Shb) (a b : Vec),
    readVR s va = .holds a → readVR s vb = .holds b →
    ∃ t, exec (.vsldoi128 vd va vb shb) s = .next t ∧ readVR t vd = .holds (window a b shb) ∧
      t.pc = s.pc + 4 ∧ Unchanged s t vd) ∧
  (∀ (s : State) (vd va vb : VRNum) (shb : Shb),
    (readVR s va = .unwritten → exec (.vsldoi128 vd va vb shb) s = .fault (.unwrittenVR va)) ∧
    (Written s va → readVR s vb = .unwritten → exec (.vsldoi128 vd va vb shb) s = .fault (.unwrittenVR vb))) ∧
  (∀ (p : Bit21) (w : Word), w &&& 0xFC000010 = 0x10000010 →
    ∃ vd va vb : VRNum, decodeWord p w = .ok (.vsldoi128 vd va vb (srcField w 22 25)) ∧
      vd.toNat = (srcField w 28 29).toNat * 32 + (srcField w 6 10).toNat ∧
      va.toNat = (srcField w 21 21).toNat * 64 + (srcField w 26 26).toNat * 32 + (srcField w 11 15).toNat ∧
      vb.toNat = (srcField w 30 31).toNat * 32 + (srcField w 16 20).toNat) ∧
  (decodeWord .refuse 0x1080FE5F = .ok (.vsldoi128 100 64 127 9) ∧
    window #v[0x00, 0x01, 0x02, 0x03, 0x04, 0x05, 0x06, 0x07, 0x08, 0x09, 0x0A, 0x0B, 0x0C, 0x0D, 0x0E, 0x0F]
      #v[0x10, 0x11, 0x12, 0x13, 0x14, 0x15, 0x16, 0x17, 0x18, 0x19, 0x1A, 0x1B, 0x1C, 0x1D, 0x1E, 0x1F] 9 =
      #v[0x09, 0x0A, 0x0B, 0x0C, 0x0D, 0x0E, 0x0F, 0x10, 0x11, 0x12, 0x13, 0x14, 0x15, 0x16, 0x17, 0x18])

/-- 10_state.md section 1 (R16, decision D7; log 2): a register outside the launch's map is unwritten, one inside
holds the launch's value, and the read of an unwritten source is the fault, `VA` first, also at `SHB` = 0 where the
result would not depend on `VB`. -/
def Obligations.UnwrittenSourceFaults : Prop :=
  (∀ (i : Instr) (s : State), readVR s i.va = .unwritten → exec i s = .fault (.unwrittenVR i.va)) ∧
  (∀ (i : Instr) (s : State) (a : Vec), readVR s i.va = .holds a → readVR s i.vb = .unwritten →
    exec i s = .fault (.unwrittenVR i.vb)) ∧
  (∀ (l : Launch) (s : State) (n : VRNum), launch l = .next s → readVR s n = l.vr[n.toNat]'(n.isLt))

/-- 10_state.md section 1 (R15, and decision D7 of R16; log 2): an instruction completes exactly when both its sources
hold values, whatever `SHB` and the destination are; its only other outcome is the fault of an unwritten source. -/
def Obligations.CompletesExactlyOnWrittenSources : Prop :=
  ∀ (i : Instr) (s : State),
    ((∃ t, exec i s = .next t) ↔ Written s i.va ∧ Written s i.vb) ∧
    (∀ f, exec i s = .fault f → ∃ n, f = .unwrittenVR n ∧ (n = i.va ∨ n = i.vb) ∧ readVR s n = .unwritten) ∧
    (∀ r, exec i s ≠ .refused r)

/-- R65: no operand makes either instruction trap: on a machine whose registers hold values, every instruction with
every operand answers a next state. -/
def Obligations.NoOperandTraps : Prop := ∀ s, AllWritten s → ∀ i, ∃ t, exec i s = .next t

/-- R20: a step of either instruction changes `VR[VD]` and pc and nothing else: every other vector register and every
piece of state the source names is the same after as before. -/
def Obligations.FrameOfBothInstructions : Prop :=
  ∀ (i : Instr) (s t : State), exec i s = .next t →
    Unchanged s t i.vd ∧ Written t i.vd ∧ t.other = s.other ∧ t.pc = s.pc + 4

/-- R62: neither instruction reads or writes any flag, condition code or status register: replacing CR, the XER flags
and VSCR changes nothing but themselves. -/
def Obligations.FlagsNeitherReadNorWritten : Prop :=
  ∀ (i : Instr) (s : State) (cr : NumberedRegs) (ca ov so : Bool) (vscr : Nat),
    let flagged (t : State) : State :=
      { t with other := { t.other with cr := cr, xerCa := ca, xerOv := ov, xerSo := so, vscr := vscr } }
    (exec i (flagged s) =
      match exec i s with
      | .next t => .next (flagged t)
      | .fault f => .fault f
      | .refused r => .refused r) ∧
    ∀ t, exec i s = .next t → statusOf t = statusOf s

/-- R28: neither instruction reads or writes data memory, and the only memory access of a step is the fetch of its own
four bytes: other contents anywhere else change nothing but themselves. -/
def Obligations.MemoryTouchedOnlyByFetch : Prop :=
  (∀ (i : Instr) (s : State) (m : Memory),
    exec i { s with other := { s.other with dataMem := m } } =
      match exec i s with
      | .next t => .next { t with other := { t.other with dataMem := m } }
      | .fault f => .fault f
      | .refused r => .refused r) ∧
  (∀ (s : State) (text data : Memory),
    (∀ a, s.pc.toNat ≤ a → a < s.pc.toNat + 4 → text.read a = s.text.read a) →
    step { s with text := text, other := { s.other with dataMem := data } } =
      match step s with
      | .next t => .next { t with text := text, other := { t.other with dataMem := data } }
      | .fault f => .fault f
      | .refused r => .refused r)

/-- 40_vector_shift_double.md section 4, law 6: the outcome depends on the values of the two source registers and the
instruction alone. Two states that agree on them, and differ anywhere else, give the same value or the same fault. -/
def Obligations.ResultDependsOnOperandsOnly : Prop :=
  ∀ (i : Instr) (s₁ s₂ : State), readVR s₁ i.va = readVR s₂ i.va → readVR s₁ i.vb = readVR s₂ i.vb →
    match exec i s₁, exec i s₂ with
    | .next t₁, .next t₂ => readVR t₁ i.vd = readVR t₂ i.vd
    | .fault f₁, .fault f₂ => f₁ = f₂
    | _, _ => False

/-- 70_reset_and_hazards.md section 4 (R82, which the spec marks as derived): an instruction that reads a register
written by the instruction before it reads the new value, as `VA` or as `VB` and across the two encodings; one that
reads the register it also writes reads the old value. -/
def Obligations.BackToBackDependence : Prop :=
  ∀ (i j : Instr) (s : State) (a b : Vec), readVR s i.va = .holds a → readVR s i.vb = .holds b →
    ∃ t, exec i s = .next t ∧ readVR t i.vd = .holds (window a b i.shb) ∧
      (∀ c, j.va = i.vd → readVR t j.vb = .holds c →
        ∃ u, exec j t = .next u ∧ readVR u j.vd = .holds (window (window a b i.shb) c j.shb)) ∧
      (∀ c, j.vb = i.vd → readVR t j.va = .holds c →
        ∃ u, exec j t = .next u ∧ readVR u j.vd = .holds (window c (window a b i.shb) j.shb))

/-! ## The step -/

/-- 70_reset_and_hazards.md section 3: when the bytes at the pc decode to an instruction, the step is `exec` of it,
with nothing around it: pc advances inside the instruction. -/
def Obligations.StepRunsDecodedInstruction : Prop :=
  ∀ (s : State) (bs rest : List Byte) (i : Instr), Standing s → s.pc.toNat % 4 = 0 →
    base s ≤ s.pc.toNat → s.pc.toNat < textEnd s → s.pc.toNat + 4 < 2 ^ s.params.pcBits.width →
    s.text.readBytes s.pc.toNat 4 = some bs → decode s.params.bit21 bs = .ok (i, rest) →
    step s = exec i s ∧ WellFormed i

/-- 70_reset_and_hazards.md section 3 (R79, decisions D4, D17 and D18; logs 7, 8 and 9): the step of the machine, in
order, where the premises of the run hold, and what a fault or refusal leaves. (A run that is over takes no step: the
model answers `runOver` there, log 7; a byte of the text that no address lists is outside it, log 11.) -/
def Obligations.StepInOrder : Prop :=
  (∀ s : State, Standing s →
    step s =
      if s.pc.toNat = base s + 4 * s.textLen then .refused .runOver
      else if s.pc.toNat % 4 ≠ 0 then .refused (.premise .alignedPc)
      else if s.pc.toNat < base s ∨ s.pc.toNat > base s + 4 * s.textLen then .refused .fetchOutsideText
      else
        match s.text.readBytes s.pc.toNat 4 with
        | some [b0, b1, b2, b3] =>
          match decodeWord s.params.bit21 (wordOfBytes b0 b1 b2 b3) with
          | .error .reservedBit21 => .refused .reservedBit21
          | .error (.notInScope w) => .refused (.notInScope w)
          | .error .truncated => .refused .fetchOutsideText
          | .ok i =>
            if s.pc.toNat + 4 ≥ 2 ^ s.params.pcBits.width then .refused .pcOverflow
            else
              match readVR s i.va, readVR s i.vb with
              | .unwritten, _ => .fault (.unwrittenVR i.va)
              | .holds _, .unwritten => .fault (.unwrittenVR i.vb)
              | .holds a, .holds b => .next (advancePc (writeVR s i.vd (window a b i.shb)))
        | _ => .refused .fetchOutsideText) ∧
  (∀ s t, step s = .next t → stepRecorded s = t) ∧
  (∀ s f, step s = .fault f → stepRecorded s = { s with record := some (.fault f) }) ∧
  (∀ s r, s.record = none → step s = .refused r → r ≠ .runOver →
    stepRecorded s = { s with record := some (.refusal r) })

/-- R17: the next pc is the old pc plus 4 exactly, and neither instruction reads pc: the same effect from any pc. -/
def Obligations.PcAdvancesByFour : Prop :=
  (∀ s t, step s = .next t → t.pc.toNat = s.pc.toNat + 4) ∧
  (∀ (i : Instr) (s : State) (p : Addr),
    exec i { s with pc := p } =
      match exec i s with
      | .next t => .next { t with pc := p + 4 }
      | .fault f => .fault f
      | .refused r => .refused r)

/-- 10_state.md section 2 (R18, decisions D2 and D3; log 4): pc is a `PC_BITS`-bit number and a multiple of 4 at
launch and after every step, and a step whose pc + 4 would not fit is refused as PcOverflow, not wrapped. -/
def Obligations.PcNeverWraps : Prop :=
  (∀ l s, launch l = .next s → s.pc.toNat % 4 = 0 ∧ s.pc.toNat < 2 ^ s.params.pcBits.width) ∧
  (∀ s t, step s = .next t → t.pc.toNat % 4 = 0 ∧ t.pc.toNat < 2 ^ t.params.pcBits.width) ∧
  (∀ (s : State) (bs rest : List Byte) (i : Instr), Standing s → s.pc.toNat % 4 = 0 →
    base s ≤ s.pc.toNat → s.pc.toNat < textEnd s →
    s.text.readBytes s.pc.toNat 4 = some bs → decode s.params.bit21 bs = .ok (i, rest) →
    2 ^ s.params.pcBits.width ≤ s.pc.toNat + 4 → step s = .refused .pcOverflow)

/-- 30_encoding.md section 4 (R49, decision D5; log 13): a `vsldoi` word with bit 21 = 1. Under `refuse` the step is
`refuse(ReservedBit21)`; under `ignore` it decodes as the same word with the bit clear. The strict pattern under
`refuse`. -/
def Obligations.Bit21Parameter : Prop :=
  (∀ (s : State) (w : Word), Standing s → s.pc.toNat % 4 = 0 → base s ≤ s.pc.toNat → s.pc.toNat < textEnd s →
    s.text.readBytes s.pc.toNat 4 = some (bytesOfWord w) → w &&& 0xFC00043F = 0x1000042C →
    s.params.bit21 = .refuse → step s = .refused .reservedBit21) ∧
  (∀ w : Word, w &&& 0xFC00043F = 0x1000042C →
    decodeWord .ignore w = decodeWord .ignore (w ^^^ 0x400) ∧ ∃ i, decodeWord .ignore w = .ok i) ∧
  (∀ w : Word, (∃ vd va vb shb, decodeWord .refuse w = .ok (.vsldoi vd va vb shb)) ↔ w &&& 0xFC00043F = 0x1000002C)

/-- 30_encoding.md section 4 (R50, decision D4; log 20): a step at a word that matches neither pattern is
`refuse(NotInScope w)`: no trap and no no-op. -/
def Obligations.OtherWordsRefused : Prop :=
  ∀ (s : State) (w : Word), Standing s → s.pc.toNat % 4 = 0 → base s ≤ s.pc.toNat → s.pc.toNat < textEnd s →
    s.text.readBytes s.pc.toNat 4 = some (bytesOfWord w) →
    w &&& 0xFC00003F ≠ 0x1000002C → w &&& 0xFC000010 ≠ 0x10000010 → step s = .refused (.notInScope w)

/-- 60_exceptions.md section 1 and 00_scope.md section 4 (R10, decision D7; log 2): the only fault of a step is the
read of an unwritten vector register, and a machine whose registers are all written never faults. -/
def Obligations.OnlyFaultIsUnwrittenRead : Prop :=
  (∀ s f, step s = .fault f → ∃ n, f = .unwrittenVR n ∧ readVR s n = .unwritten) ∧
  (∀ s, AllWritten s → ∀ f, step s ≠ .fault f)

/-- 70_reset_and_hazards.md section 3 (R77, R79, decision D17; log 9): a step that stops leaves everything but the
record as it was, a record once set is never cleared or replaced, and a machine with a record takes no step. -/
def Obligations.StopsAreRecordedForGood : Prop :=
  (∀ s, (∀ t, step s ≠ .next t) →
    stepRecorded s = { s with record := (stepRecorded s).record } ∧
    ((stepRecorded s).record = none ↔ runOver s = true)) ∧
  (∀ s r, s.record = some r → stepRecorded s = s ∧ ∀ t, step s ≠ .next t)

/-! ## Launch, invariants, end of run -/

/-- 70_reset_and_hazards.md section 3 (R78, decisions D2, D3, D8, D10 and D13; log 8): a launch is accepted exactly
when all seven named premises hold, and one that fails is refused, before any step, with the name of a premise that
fails. -/
def Obligations.LaunchPremisesNamed : Prop :=
  ∀ l : Launch,
    (launch l = .next l.state ↔ ∀ p, LaunchPremise l p) ∧
    ((∃ p, ¬LaunchPremise l p) → ∃ p, launch l = .refused (.premise p) ∧ ¬LaunchPremise l p)

/-- 70_reset_and_hazards.md section 3 (R77, decisions D7 and D17; logs 2 and 9): what a launch gives: the pc (by
default PROGRAM_BASE), the partial map of registers, and the text laid out big-endian from PROGRAM_BASE; and a record
once set is never cleared. -/
def Obligations.LaunchLaysOutProgram : Prop :=
  (∀ l s, launch l = .next s →
    s.vr = l.vr ∧ s.params = l.params ∧ s.textLen = l.text.length ∧ s.record = none ∧
    (l.pc = none → s.pc = l.params.programBase) ∧ (∀ p, l.pc = some p → s.pc = p) ∧
    (∀ (k : Nat) (h : k < l.text.length),
      s.text.readBytes (l.params.programBase.toNat + 4 * k) 4 = some (bytesOfWord l.text[k])) ∧
    (∀ a, (s.text.read a).isSome ↔
      l.params.programBase.toNat ≤ a ∧ a < l.params.programBase.toNat + 4 * l.text.length)) ∧
  (∀ s r, s.record = some r → (stepRecorded s).record = some r)

/-- 20_memory.md section 1 (R26, decision D1; log 12): the fetched word is the number of the four bytes at pc, the
byte at pc the most significant. -/
def Obligations.FetchIsBigEndian : Prop :=
  (∀ b0 b1 b2 b3 : Byte,
    (wordOfBytes b0 b1 b2 b3).toNat = b0.toNat * 2 ^ 24 + b1.toNat * 2 ^ 16 + b2.toNat * 2 ^ 8 + b3.toNat) ∧
  (∀ (w : Word) (p : Bit21) (i : Instr), decodeWord p w = .ok i → decode p (bytesOfWord w) = .ok (i, [])) ∧
  (∀ (s : State) (b0 b1 b2 b3 : Byte), fetchBytes s = some [b0, b1, b2, b3] ↔
    s.text.read s.pc.toNat = some b0 ∧ s.text.read (s.pc.toNat + 1) = some b1 ∧
      s.text.read (s.pc.toNat + 2) = some b2 ∧ s.text.read (s.pc.toNat + 3) = some b3) ∧
  bytesOfWord 0x1000002C = [0x10, 0x00, 0x00, 0x2C]

/-- 70_reset_and_hazards.md section 3 (R78) and 20_memory.md R27: an accepted launch establishes the invariant of a
run and its standing premises (the data memory, which the source does not describe, being given in canonical form). -/
def Obligations.LaunchEstablishesInvariant : Prop :=
  ∀ l s, launch l = .next s → Memory.wf l.other.dataMem → RunInv s ∧ Standing s

/-- The invariant of a run is kept by every step (20_memory.md R27 and R35, 10_state.md R18, 70 R78). -/
def Obligations.StepKeepsInvariant : Prop := ∀ s t, RunInv s → step s = .next t → RunInv t ∧ Standing t

/-- What reset leaves, all of it a choice: the source gives no reset value (10_state.md R24, 70_reset_and_hazards.md
R75). From the spec's own decisions on a launch: the pc at PROGRAM_BASE by default (R24), nothing recorded (premise
NoFault, 70_reset_and_hazards.md section 3, R78; log 9), the facility available (VEC_AVAILABLE, decision D8; log 16)
and no interrupt (NoInterrupts, decision D10; log 17). The model's choice: every vector register holds a value
(log 1), PC_BITS (log 4), PROGRAM_BASE and the empty text (log 5), and nothing listed in data memory (log 11). The run
of the empty program is over at once (95_test_vectors.md P7; log 7). -/
def Obligations.ResetState : Prop :=
  RunInv State.reset ∧ Standing State.reset ∧ AllWritten State.reset ∧
    State.reset.pc = State.reset.params.programBase ∧ State.reset.params.vecAvailable = true ∧
    runOver State.reset = true

/-- 10_state.md sections 1 and 3 (R16, R20): no step makes a written register unwritten, and a step writes at most one
register; so a machine whose registers all hold values keeps that (log 1: as after reset). -/
def Obligations.WrittenStaysWritten : Prop :=
  (∀ s t, step s = .next t → ∀ n, Written s n → Written t n) ∧
  (∀ s t, step s = .next t → AllWritten s → AllWritten t) ∧
  (∀ s t, step s = .next t → ∃ vd, Written t vd ∧ ∀ n, n ≠ vd → readVR t n = readVR s n)

/-- 20_memory.md section 6 (R35, decision D16; log 3): the program text is fixed for the whole run, so a later fetch
never differs from an earlier one; nor do the parameters change (10_state.md R22). -/
def Obligations.ProgramTextFixed : Prop :=
  ∀ (k : Nat) (s t : State), Host.Core.run Sys2Proof.core k s = .next t →
    t.text = s.text ∧ t.textLen = s.textLen ∧ t.params = s.params ∧ t.other = s.other ∧
      ∀ a n, t.text.readBytes a n = s.text.readBytes a n

/-- Progress (60_exceptions.md R65, 70 R79): inside a launched run, with every register written and the word at the pc
one of the two instructions, the step answers a next state. -/
def Obligations.Progress : Prop :=
  ∀ s, RunInv s → Standing s → AllWritten s → s.pc.toNat ≠ textEnd s →
    (∀ bs, s.text.readBytes s.pc.toNat 4 = some bs → ∃ i rest, decode s.params.bit21 bs = .ok (i, rest)) →
    ∃ t, step s = .next t

/-- 70_reset_and_hazards.md section 3 (R80, decision D17; log 7): the run is over when and only when pc = PROGRAM_BASE
+ 4*L with nothing recorded; a program of `L` words started at PROGRAM_BASE is over after exactly `L` steps if none
stops, is not over before, and takes no step after. -/
def Obligations.RunTakesExactlyLSteps : Prop :=
  (∀ s, runOver s = true ↔ s.pc.toNat = base s + 4 * s.textLen ∧ s.record = none) ∧
  (∀ s, RunInv s → Standing s → s.pc = s.params.programBase →
    (∀ t, Host.Core.run Sys2Proof.core s.textLen s = .next t → runOver t = true) ∧
    (∀ k t, k < s.textLen → Host.Core.run Sys2Proof.core k s = .next t → runOver t = false) ∧
    (∀ k t, s.textLen < k → Host.Core.run Sys2Proof.core k s ≠ .next t))

/-- The model's own placing of an instruction (log 6): the next step of the state with a word placed is `exec` of the
instruction the word decodes to, and registers, pc and data memory are as they were. -/
def Obligations.PlacedWordRunsNext : Prop :=
  ∀ (s : State) (w : Word) (i : Instr), Standing s → s.pc.toNat % 4 = 0 →
    s.pc.toNat + 4 < 2 ^ s.params.pcBits.width → decodeWord s.params.bit21 w = .ok i →
    let s' := s.withFetchWord 32 w.toNat
    step s' = exec i s' ∧ s'.vr = s.vr ∧ s'.pc = s.pc ∧ s'.other = s.other
end

