-- ==== Sys2Proof/Laws/Decode.lean ====
section
/-! SUPPORT. Bytes and words: laying a word out and reading it back, and decoding laid out words. -/

namespace Sys2Proof

/-- Reading back the four bytes of a word gives the word. -/
@[simp] theorem wordOfBytes_bytes (w : Word) :
    wordOfBytes (w.extractLsb' 24 8) (w.extractLsb' 16 8) (w.extractLsb' 8 8) (w.extractLsb' 0 8) = w := by
  apply BitVec.eq_of_getElem_eq
  intro k hk
  interval_cases k <;> simp [wordOfBytes]

/-- Decoding the bytes of a word is decoding the word. -/
theorem decode_bytesOfWord (p : Bit21) (w : Word) (rest : List Byte) :
    decode p (bytesOfWord w ++ rest) =
      match decodeWord p w with
      | .ok i => .ok (i, rest)
      | .error e => .error e := by
  cases h : decodeWord p w <;> simp [decode, bytesOfWord, h]

/-- What `decodeWord` can answer with an instruction: one of the two forms, on its own fixed bits. -/
theorem decodeWord_ok {p : Bit21} {w : Word} {i : Instr} (h : decodeWord p w = .ok i) :
    fieldOPCD w = 4 ∧
      ((fieldXO w = 44 ∧ (p = .refuse → fieldBit21 w ≠ 1) ∧ i = decodeVsldoi w) ∨
        (fieldBit27 w = 1 ∧ i = decodeVsldoi128 w)) := by
  unfold decodeWord at h
  split at h
  · next h1 =>
    split at h
    · cases h
    · next h2 =>
      exact ⟨h1.1, .inl ⟨h1.2, fun hp hb => h2 ⟨hp, hb⟩, by simpa using h.symm⟩⟩
  · split at h
    · next h1 => exact ⟨h1.1, .inr ⟨h1.2, by simpa using h.symm⟩⟩
    · cases h

/-- The bits of a 7-bit register number from its pieces. -/
theorem reg7_bits (h : BitVec 2) (l : BitVec 5) :
    (reg7 h l)[0] = l[0] ∧ (reg7 h l)[1] = l[1] ∧ (reg7 h l)[2] = l[2] ∧ (reg7 h l)[3] = l[3] ∧
      (reg7 h l)[4] = l[4] ∧ (reg7 h l)[5] = h[0] ∧ (reg7 h l)[6] = h[1] := by
  simp [reg7]

/-- The bits of a 5-bit register field as a register number. -/
theorem reg5_bits (l : BitVec 5) :
    (reg5 l)[0] = l[0] ∧ (reg5 l)[1] = l[1] ∧ (reg5 l)[2] = l[2] ∧ (reg5 l)[3] = l[3] ∧
      (reg5 l)[4] = l[4] ∧ (reg5 l)[5] = false ∧ (reg5 l)[6] = false := by
  simp [reg5]

/-- The word bits `VA` of `vsldoi128` is made of (30_encoding.md R44). -/
theorem regA128_bits (w : Word) :
    (regA128 w)[0] = w[16] ∧ (regA128 w)[1] = w[17] ∧ (regA128 w)[2] = w[18] ∧ (regA128 w)[3] = w[19] ∧
      (regA128 w)[4] = w[20] ∧ (regA128 w)[5] = w[5] ∧ (regA128 w)[6] = w[10] := by
  simp [regA128, fieldBit21, fieldVA128h, fieldVRA, srcField]

/-- A `vsldoi128` word is no `vsldoi` word: `XO` = 44 has bit 27 clear (30_encoding.md R48). -/
theorem fieldXO_ne_of_bit27 {w : Word} (h : fieldBit27 w = 1) : fieldXO w ≠ 44 := by
  intro h'
  have a := congrArg (·.getLsbD 4) h'
  have b := congrArg (·.getLsbD 0) h
  simp [fieldXO, fieldBit27, srcField] at a b
  simp_all

/-- The number a 5-bit register field names (30_encoding.md R40). -/
theorem reg5_toNat (f : BitVec 5) : (reg5 f).toNat = f.toNat := by
  have := f.isLt
  simp [reg5]; omega

/-- The number two high bits and five low bits name (30_encoding.md R43, R45). -/
theorem reg7_toNat (h : BitVec 2) (l : BitVec 5) : (reg7 h l).toNat = h.toNat * 32 + l.toNat := by
  revert h l; decide

/-- Decoding bytes answers an instruction exactly when they begin with a word that decodes to it. -/
theorem decode_ok {p : Bit21} {bs rest : List Byte} {i : Instr} (h : decode p bs = .ok (i, rest)) :
    ∃ b0 b1 b2 b3, bs = b0 :: b1 :: b2 :: b3 :: rest ∧ decodeWord p (wordOfBytes b0 b1 b2 b3) = .ok i := by
  unfold decode at h
  split at h
  · split at h
    · next hw => cases h; exact ⟨_, _, _, _, rfl, hw⟩
    · cases h
  · cases h

end Sys2Proof
end

