-- ==== Sys2Proof/Laws/State.lean ====
section
/-! SUPPORT. What each named update of State leaves in each field, and what a register read gives after it. -/

namespace Sys2Proof.Machine

variable (s : State) (n m : VRNum) (v : Vec) (r : Stop)

/-! ### writeVR -/

@[simp] theorem writeVR_pc : (writeVR s n v).pc = s.pc := rfl
@[simp] theorem writeVR_record : (writeVR s n v).record = s.record := rfl
@[simp] theorem writeVR_text : (writeVR s n v).text = s.text := rfl
@[simp] theorem writeVR_textLen : (writeVR s n v).textLen = s.textLen := rfl
@[simp] theorem writeVR_params : (writeVR s n v).params = s.params := rfl
@[simp] theorem writeVR_other : (writeVR s n v).other = s.other := rfl

/-! ### advancePc -/

@[simp] theorem advancePc_pc : (advancePc s).pc = s.pc + 4 := rfl
@[simp] theorem advancePc_vr : (advancePc s).vr = s.vr := rfl
@[simp] theorem advancePc_record : (advancePc s).record = s.record := rfl
@[simp] theorem advancePc_text : (advancePc s).text = s.text := rfl
@[simp] theorem advancePc_textLen : (advancePc s).textLen = s.textLen := rfl
@[simp] theorem advancePc_params : (advancePc s).params = s.params := rfl
@[simp] theorem advancePc_other : (advancePc s).other = s.other := rfl

/-! ### recordStop -/

/-- Recording a stop changes the record only, and only where none is set. -/
theorem recordStop_eq : recordStop s r = { s with record := some (s.record.getD r) } := by
  cases s with
  | mk vr pc record text textLen params other => cases record <;> rfl

@[simp] theorem recordStop_vr : (recordStop s r).vr = s.vr := by rw [recordStop_eq]
@[simp] theorem recordStop_pc : (recordStop s r).pc = s.pc := by rw [recordStop_eq]
@[simp] theorem recordStop_text : (recordStop s r).text = s.text := by rw [recordStop_eq]
@[simp] theorem recordStop_textLen : (recordStop s r).textLen = s.textLen := by rw [recordStop_eq]
@[simp] theorem recordStop_params : (recordStop s r).params = s.params := by rw [recordStop_eq]
@[simp] theorem recordStop_other : (recordStop s r).other = s.other := by rw [recordStop_eq]
@[simp] theorem recordStop_record : (recordStop s r).record = some (s.record.getD r) := by rw [recordStop_eq]

/-! ### memWrite -/

@[simp] theorem memWrite_vr (a k x : Nat) : (memWrite s a k x).vr = s.vr := rfl
@[simp] theorem memWrite_pc (a k x : Nat) : (memWrite s a k x).pc = s.pc := rfl
@[simp] theorem memWrite_text (a k x : Nat) : (memWrite s a k x).text = s.text := rfl
@[simp] theorem memWrite_params (a k x : Nat) : (memWrite s a k x).params = s.params := rfl

/-! ### Register reads -/

@[simp] theorem readVR_advancePc : readVR (advancePc s) n = readVR s n := rfl

@[simp] theorem readVR_recordStop : readVR (recordStop s r) n = readVR s n := by simp [readVR]

@[simp] theorem readVR_writeVR_same : readVR (writeVR s n v) n = .holds v := by simp [readVR, writeVR]

theorem readVR_writeVR_other (h : m ≠ n) : readVR (writeVR s n v) m = readVR s m := by
  have h' : n.toNat ≠ m.toNat := fun e => h (BitVec.eq_of_toNat_eq e.symm)
  simp [readVR, writeVR, Vector.getElem_set_ne, h']

/-- Every register after a write, as one equation. -/
theorem readVR_writeVR : readVR (writeVR s n v) m = if m = n then .holds v else readVR s m := by
  by_cases h : m = n
  · subst h; simp
  · simp [h, readVR_writeVR_other]

/-- Every register after reset holds the zero value (log 1: the model's choice). -/
theorem readVR_reset : readVR State.reset n = .holds Vec.zero := by simp [readVR, State.reset]

/-! ### The text's addresses -/

@[simp] theorem base_writeVR : base (writeVR s n v) = base s := rfl
@[simp] theorem base_advancePc : base (advancePc s) = base s := rfl
@[simp] theorem textEnd_writeVR : textEnd (writeVR s n v) = textEnd s := rfl
@[simp] theorem textEnd_advancePc : textEnd (advancePc s) = textEnd s := rfl

end Sys2Proof.Machine
end

