-- ==== Sys2Proof/Laws/Exec.lean ====
section
/-! SUPPORT. What each shared operation of the two instructions can do, said once. -/

namespace Sys2Proof.Machine

/-- Byte `j` of the window is byte `s + j` of the concatenation. -/
theorem window_getElem (a b : Vec) (s : Shb) (j : Nat) (h : j < 16) :
    (window a b s)[j] = catByte a b (s.toNat + j) (by omega) := by
  simp [window]

theorem catByte_low (a b : Vec) {i : Nat} (h : i < 16) : catByte a b i (by omega) = a[i] := by
  simp [catByte, h]

theorem catByte_high (a b : Vec) {i : Nat} (h : i < 32) (h' : 16 ≤ i) : catByte a b i h = b[i - 16] := by
  simp [catByte, Nat.not_lt.2 h']

/-- Reading both sources answers values exactly when both registers hold them. -/
theorem readSources_ok {s : State} {va vb : VRNum} {a b : Vec} :
    readSources s va vb = .ok (a, b) ↔ readVR s va = .holds a ∧ readVR s vb = .holds b := by
  unfold readSources
  cases readVR s va <;> cases readVR s vb <;> simp

/-- The faults of reading both sources. -/
theorem readSources_error {s : State} {va vb : VRNum} {f : Fault} :
    readSources s va vb = .error f ↔
      (readVR s va = .unwritten ∧ f = .unwrittenVR va) ∨
        (Written s va ∧ readVR s vb = .unwritten ∧ f = .unwrittenVR vb) := by
  unfold readSources Written
  cases readVR s va <;> cases readVR s vb <;> simp [eq_comm]

/-- Both arms of exec are the shared effect on the instruction's operands. -/
theorem exec_eq_shiftDouble (i : Instr) (s : State) : exec i s = shiftDouble i.vd i.va i.vb i.shb s := by
  cases i <;> rfl

/-- The shared effect answers a next state exactly when both sources hold values, and then which. -/
theorem shiftDouble_next {vd va vb : VRNum} {shb : Shb} {s t : State} :
    shiftDouble vd va vb shb s = .next t ↔
      ∃ a b, readVR s va = .holds a ∧ readVR s vb = .holds b ∧
        t = advancePc (writeVR s vd (window a b shb)) := by
  unfold shiftDouble
  constructor
  · intro h
    split at h
    · cases h
    · next a b hab =>
      obtain ⟨ha, hb⟩ := readSources_ok.1 hab
      exact ⟨a, b, ha, hb, by simpa using h.symm⟩
  · rintro ⟨a, b, ha, hb, rfl⟩
    simp [readSources_ok.2 ⟨ha, hb⟩]

/-- The faults of the shared effect. -/
theorem shiftDouble_fault {vd va vb : VRNum} {shb : Shb} {s : State} {f : Fault} :
    shiftDouble vd va vb shb s = .fault f ↔
      (readVR s va = .unwritten ∧ f = .unwrittenVR va) ∨
        (Written s va ∧ readVR s vb = .unwritten ∧ f = .unwrittenVR vb) := by
  rw [← readSources_error]
  unfold shiftDouble
  cases readSources s va vb <;> simp

/-- The shared effect refuses nothing. -/
theorem shiftDouble_not_refused {vd va vb : VRNum} {shb : Shb} {s : State} {r : Refusal} :
    shiftDouble vd va vb shb s ≠ .refused r := by
  unfold shiftDouble
  cases readSources s va vb <;> simp

/-- What `exec` can do when it answers a next state. -/
theorem exec_next {i : Instr} {s t : State} :
    exec i s = .next t ↔
      ∃ a b, readVR s i.va = .holds a ∧ readVR s i.vb = .holds b ∧
        t = advancePc (writeVR s i.vd (window a b i.shb)) := by
  rw [exec_eq_shiftDouble, shiftDouble_next]

/-- `exec` on readable sources. -/
theorem exec_of_holds {i : Instr} {s : State} {a b : Vec} (ha : readVR s i.va = .holds a)
    (hb : readVR s i.vb = .holds b) : exec i s = .next (advancePc (writeVR s i.vd (window a b i.shb))) :=
  exec_next.2 ⟨a, b, ha, hb, rfl⟩

end Sys2Proof.Machine
end

