-- ==== Sys2Proof/Laws/Step.lean ====
section
/-! SUPPORT. What a step can do, said once. -/

namespace Sys2Proof.Machine

/-- No standing premise fails exactly when all of them hold. -/
theorem failedPremise_standing {s : State} : failedPremise s standingPremises = none ↔ Standing s := by
  simp only [failedPremise, standingPremises, holdsPremise, List.find?_eq_none]
  constructor
  · intro h
    exact ⟨by simpa using h .vecAvailable, by simpa using h .noFault, by simpa using h .noInterrupts⟩
  · rintro ⟨h1, h2, h3⟩ p hp
    simp only [List.mem_cons, List.not_mem_nil, or_false] at hp
    rcases hp with rfl | rfl | rfl <;> simp [h1, h2, h3]

/-- When the run is over (70_reset_and_hazards.md R80). -/
theorem runOver_iff {s : State} : runOver s = true ↔ s.pc.toNat = textEnd s ∧ s.record = none := by
  simp [runOver, atEnd]

/-- Where the standing premises hold, the refusals before the fetch are those of R79 items 1 and 2. -/
theorem refusalBeforeFetch_standing {s : State} (h : Standing s) :
    refusalBeforeFetch s =
      if s.pc.toNat = textEnd s then some .runOver
      else if s.pc.toNat % 4 ≠ 0 then some (.premise .alignedPc)
      else if s.pc.toNat < base s ∨ textEnd s < s.pc.toNat then some .fetchOutsideText
      else none := by
  simp only [refusalBeforeFetch, runOver_iff, h.noFault, and_true, failedPremise_standing.2 h]

/-- No refusal stands before the fetch exactly when the standing premises hold and the pc is aligned and in the text. -/
theorem refusalBeforeFetch_none {s : State} :
    refusalBeforeFetch s = none ↔
      Standing s ∧ s.pc.toNat % 4 = 0 ∧ base s ≤ s.pc.toNat ∧ s.pc.toNat < textEnd s := by
  constructor
  · intro h
    have hs : Standing s := by
      unfold refusalBeforeFetch at h
      split at h
      · cases h
      · split at h
        · cases h
        · next hf => exact failedPremise_standing.1 hf
    rw [refusalBeforeFetch_standing hs] at h
    split at h
    · cases h
    · split at h
      · cases h
      · split at h
        · cases h
        · exact ⟨hs, by omega, by omega, by omega⟩
  · rintro ⟨hs, h1, h2, h3⟩
    rw [refusalBeforeFetch_standing hs, if_neg (by omega), if_neg (by omega), if_neg (by omega)]

/-- A step that answers a next state ran one decoded instruction, at an aligned pc inside the text, without leaving
`PC_BITS`. -/
theorem step_next {s t : State} (h : step s = .next t) :
    Standing s ∧ s.pc.toNat % 4 = 0 ∧ base s ≤ s.pc.toNat ∧ s.pc.toNat < textEnd s ∧
      s.pc.toNat + 4 < 2 ^ s.params.pcBits.width ∧ ∃ i, fetchInstr s = .ok i ∧ exec i s = .next t := by
  unfold step at h
  split at h
  · cases h
  · next hr =>
    obtain ⟨h1, h2, h3, h4⟩ := refusalBeforeFetch_none.1 hr
    split at h
    · cases h
    · next i hi =>
      split at h
      · cases h
      · next ho =>
        simp only [pcOverflows, decide_eq_true_eq] at ho
        exact ⟨h1, h2, h3, h4, by omega, i, hi, h⟩

/-- The next state of a step: one register and the pc. -/
theorem step_next_state {s t : State} (h : step s = .next t) :
    ∃ vd v, t = advancePc (writeVR s vd v) := by
  obtain ⟨-, -, -, -, -, i, -, hx⟩ := step_next h
  obtain ⟨a, b, -, -, rfl⟩ := exec_next.1 hx
  exact ⟨_, _, rfl⟩

/-- A step whose fetch decodes runs that instruction. -/
theorem step_of_fetch {s : State} {i : Instr} (hs : Standing s) (h4 : s.pc.toNat % 4 = 0)
    (hb : base s ≤ s.pc.toNat) (he : s.pc.toNat < textEnd s) (hi : fetchInstr s = .ok i)
    (ho : s.pc.toNat + 4 < 2 ^ s.params.pcBits.width) : step s = exec i s := by
  have hr := refusalBeforeFetch_none.2 ⟨hs, h4, hb, he⟩
  have : pcOverflows s = false := by simpa [pcOverflows] using ho
  simp [step, hr, hi, this]

end Sys2Proof.Machine
end

