-- ==== Sys2Proof/Laws/Launch.lean ====
section
/-! SUPPORT. What a launch can do, said once. -/

namespace Sys2Proof.Machine

/-- No premise of a launch fails exactly when all hold. -/
theorem failedPremise_launch {s : State} :
    failedPremise s launchPremises = none ↔ ∀ p, holdsPremise s p = true := by
  simp only [failedPremise, List.find?_eq_none]
  constructor
  · intro h p
    simpa using h p (by cases p <;> decide)
  · intro h p _
    simp [h p]

/-- A premise of the state a launch starts in is what R78 says of the launch. -/
theorem holdsPremise_state (l : Launch) (p : Premise) : holdsPremise l.state p = true ↔ LaunchPremise l p := by
  cases p <;>
    simp only [holdsPremise, LaunchPremise, decide_eq_true_eq, Bool.and_eq_true, Option.isNone_iff_eq_none] <;> rfl

/-- A launch that is accepted starts in its state, with every premise. -/
theorem launch_next {l : Launch} {s : State} (h : launch l = .next s) :
    s = l.state ∧ ∀ p, holdsPremise l.state p = true := by
  unfold launch at h
  split at h
  · cases h
  · next hf => exact ⟨by simpa using h.symm, failedPremise_launch.1 hf⟩

end Sys2Proof.Machine
end

