-- ==== Sys2Proof/Laws/Memory.lean ====
section
/-! SUPPORT. Byte memory: a read after a write, and that every operation keeps the canonical form. -/

namespace Sys2Proof.Machine

@[simp] theorem Memory.read_write_same (m : Memory) (a : Nat) (v : Byte) : (m.write a v).read a = some v := by
  induction m with
  | nil => simp [Memory.write, Memory.read]
  | cons c m ih =>
    obtain ⟨b, w⟩ := c
    simp only [Memory.write]
    split
    · simp [Memory.read]
    · split
      · simp [Memory.read]
      · simp [Memory.read, *]

theorem Memory.read_write_other (m : Memory) {a b : Nat} (v : Byte) (h : b ≠ a) :
    (m.write a v).read b = m.read b := by
  induction m with
  | nil => simp [Memory.write, Memory.read, h]
  | cons c m ih =>
    obtain ⟨k, w⟩ := c
    simp only [Memory.write]
    split
    · simp [Memory.read, h]
    · split
      · next h1 => subst h1; simp [Memory.read, h]
      · simp [Memory.read, ih]

/-- The addresses listed after a write are the old ones and the one written. -/
theorem Memory.mem_write {m : Memory} {a : Nat} {v : Byte} {c : Host.Cell} (h : c ∈ m.write a v) :
    c = (a, v) ∨ c ∈ m := by
  induction m with
  | nil => simpa [Memory.write] using h
  | cons d m ih =>
    obtain ⟨k, w⟩ := d
    simp only [Memory.write] at h
    split at h
    · simpa using h
    · split at h
      · rcases List.mem_cons.1 h with h | h
        · exact .inl h
        · exact .inr (List.mem_cons_of_mem _ h)
      · rcases List.mem_cons.1 h with h | h
        · exact .inr (by simp [h])
        · rcases ih h with h | h
          · exact .inl h
          · exact .inr (List.mem_cons_of_mem _ h)

theorem Memory.wf_write {m : Memory} (h : m.wf) (a : Nat) (v : Byte) : (m.write a v).wf := by
  induction m with
  | nil => simp [Memory.write, Memory.wf]
  | cons c m ih =>
    obtain ⟨k, w⟩ := c
    obtain ⟨h1, h2⟩ := List.pairwise_cons.1 h
    simp only [Memory.write]
    split
    · next hlt =>
      refine List.pairwise_cons.2 ⟨?_, h⟩
      intro d hd
      rcases List.mem_cons.1 hd with rfl | hd
      · exact hlt
      · exact Nat.lt_trans hlt (h1 d hd)
    · split
      · next heq => subst heq; exact List.pairwise_cons.2 ⟨h1, h2⟩
      · next hge hne =>
        refine List.pairwise_cons.2 ⟨?_, ih h2⟩
        intro d hd
        rcases Memory.mem_write hd with rfl | hd
        · show k < a; omega
        · exact h1 d hd

theorem Memory.wf_writeBytes {m : Memory} (h : m.wf) (a : Nat) (bs : List Byte) : (m.writeBytes a bs).wf := by
  induction bs generalizing m a with
  | nil => exact h
  | cons b bs ih => exact ih (Memory.wf_write h a b) (a + 1)

/-- Bytes below the first address written keep their value. -/
theorem Memory.read_writeBytes_below (m : Memory) (bs : List Byte) {a b : Nat} (h : b < a) :
    (m.writeBytes a bs).read b = m.read b := by
  induction bs generalizing m a with
  | nil => rfl
  | cons v bs ih =>
    rw [Memory.writeBytes, ih (m.write a v) (by omega), Memory.read_write_other m v (by omega)]

/-- Reading back the bytes written. -/
theorem Memory.readBytes_writeBytes (m : Memory) (a : Nat) (bs : List Byte) :
    (m.writeBytes a bs).readBytes a bs.length = some bs := by
  induction bs generalizing m a with
  | nil => rfl
  | cons b bs ih =>
    have h := Memory.read_writeBytes_below (m.write a b) bs (Nat.lt_succ_self a)
    simp [Memory.readBytes, Memory.writeBytes, h, ih]

/-- A read of `n` bytes that answers gives `n` bytes. -/
theorem Memory.length_readBytes {m : Memory} {a n : Nat} {bs : List Byte} (h : m.readBytes a n = some bs) :
    bs.length = n := by
  induction n generalizing a bs with
  | zero => simp [Memory.readBytes] at h; subst h; rfl
  | succ n ih =>
    simp only [Memory.readBytes] at h
    split at h
    · next h2 => cases h; simp [ih h2]
    · cases h

/-- An address holds a byte exactly when it is listed. -/
theorem Memory.isSome_read (m : Memory) (a : Nat) : (m.read a).isSome ↔ a ∈ m.map Prod.fst := by
  induction m with
  | nil => simp [Memory.read]
  | cons c m ih =>
    obtain ⟨b, v⟩ := c
    simp only [Memory.read]
    split
    · next h => simp [h]
    · next h => simp [ih, h]

/-- The addresses of a laid out text. -/
theorem layWords_addresses (a : Nat) (ws : List Word) :
    (layWords a ws).map Prod.fst = List.range' a (4 * ws.length) := by
  induction ws generalizing a with
  | nil => rfl
  | cons w ws ih =>
    rw [List.length_cons, Nat.mul_add, Nat.mul_one, Nat.add_comm, ← List.range'_append_1]
    simp [layWords, ih, List.range'_succ]

/-- A memory that lists the addresses of a range is canonical. -/
theorem Memory.wf_of_addresses {m : Memory} {a k : Nat} (h : m.map Prod.fst = List.range' a k) : m.wf := by
  have := List.pairwise_lt_range' (s := a) (n := k)
  rw [← h] at this
  exact List.pairwise_map.1 this

/-- A laid out text is canonical. -/
theorem layWords_wf (a : Nat) (ws : List Word) : Memory.wf (layWords a ws) :=
  Memory.wf_of_addresses (layWords_addresses a ws)

/-- The memories after reset are canonical. -/
theorem reset_memories_wf : Memory.wf State.reset.text ∧ Memory.wf State.reset.other.dataMem := by decide

/-- A data memory write keeps the canonical form. -/
theorem memWrite_wf {s : State} (h : Memory.wf s.other.dataMem) (a n v : Nat) :
    Memory.wf (memWrite s a n v).other.dataMem := Memory.wf_writeBytes h a _

/-- Placing a word keeps the text canonical. -/
theorem placeBytes_wf {s : State} (h : Memory.wf s.text) (bs : List Byte) : Memory.wf (placeBytes s bs).text := by
  unfold placeBytes
  split
  · exact Memory.wf_writeBytes h _ _
  · split
    · exact Memory.wf_writeBytes h _ _
    · exact Memory.wf_writeBytes List.Pairwise.nil _ _

end Sys2Proof.Machine
end

