-- ==== Sys2Proof/Laws/PerInstr.lean ====
section
/-! SUPPORT. Statements about every instruction as syntax, one lemma per constructor. -/

namespace Sys2Proof.Laws.EncodedOpcode

/-- The word of every well-formed instruction has primary opcode 4 (30_encoding.md R37) and the fixed bits of its
form: `XO` = 44 and bit 21 = 0 for `vsldoi` (R39, R47), bit 27 = 1 for `vsldoi128` (R42). -/
def Statement (i : Instr) : Prop :=
  WellFormed i →
    fieldOPCD (encode i) = 4 ∧
      match i with
      | .vsldoi _ _ _ _ => fieldXO (encode i) = 44 ∧ fieldBit21 (encode i) = 0
      | .vsldoi128 _ _ _ _ => fieldBit27 (encode i) = 1

/-- Bits 5 and 6 of a register number below 32 are clear. -/
theorem high_bits_of_lt {n : VRNum} (h : n.toNat < 32) : n[5] = false ∧ n[6] = false := by
  constructor <;>
    (simp only [← BitVec.getLsbD_eq_getElem, BitVec.getLsbD, Nat.testBit_eq_decide_div_mod_eq,
      decide_eq_false_iff_not]; omega)

theorem vsldoi (vd va vb : VRNum) (shb : Shb) : Statement (.vsldoi vd va vb shb) := by
  intro h
  simp only [WellFormed, Instr.wf, decide_eq_true_eq] at h
  obtain ⟨hd, ha, hb⟩ := h
  obtain ⟨hd5, hd6⟩ := high_bits_of_lt hd
  refine ⟨?_, ?_, ?_⟩ <;> apply BitVec.eq_of_getElem_eq <;> intro k hk <;> interval_cases k <;>
    simp [fieldOPCD, fieldXO, fieldBit21, srcField, encode, *]

theorem vsldoi128 (vd va vb : VRNum) (shb : Shb) : Statement (.vsldoi128 vd va vb shb) := by
  refine fun _ => ⟨?_, ?_⟩ <;> apply BitVec.eq_of_getElem_eq <;> intro k hk <;> interval_cases k <;>
    simp [fieldOPCD, fieldBit27, srcField, encode]

end Sys2Proof.Laws.EncodedOpcode
end

