-- ==== Sys2Proof/Tests/Slice0.lean ====
section
/-! SUPPORT. Tests. Expected results are those of 95_test_vectors.md (S, V and P entries) and of the rules named at
each test; none was made by running the model. The witnesses at the end meet the hypotheses of the statements. -/

namespace Sys2Proof.Tests

open Sys2Proof.Machine

/-! ### WellFormed: an ill-formed term for each check -/

theorem test_wf_vsldoi_largest : WellFormed (.vsldoi 31 31 31 15) := by decide
theorem test_illformed_vd : ¬WellFormed (.vsldoi 32 0 0 0) := by decide
theorem test_illformed_va : ¬WellFormed (.vsldoi 0 32 0 0) := by decide
theorem test_illformed_vb : ¬WellFormed (.vsldoi 0 0 32 0) := by decide
theorem test_wf_vsldoi128_largest : WellFormed (.vsldoi128 127 127 127 15) := by decide

/-- 30_encoding.md R52 to R54: the operand ranges of both mnemonics, each check refused just past its bound. -/
theorem test_asm_vsldoi_largest : assemble ⟨.vsldoi, 31, 31, 31, 15⟩ = some 0x13FFFBEC := by decide
theorem test_asm_vsldoi_vd : assemble ⟨.vsldoi, 32, 0, 0, 0⟩ = none := by decide
theorem test_asm_vsldoi_va : assemble ⟨.vsldoi, 0, 32, 0, 0⟩ = none := by decide
theorem test_asm_vsldoi_vb : assemble ⟨.vsldoi, 0, 0, 32, 0⟩ = none := by decide
theorem test_asm_vsldoi_shb : assemble ⟨.vsldoi, 0, 0, 0, 16⟩ = none := by decide
theorem test_asm_vsldoi128_largest : assemble ⟨.vsldoi128, 127, 127, 127, 15⟩ = some 0x13FFFFFF := by decide
theorem test_asm_vsldoi128_vd : assemble ⟨.vsldoi128, 128, 0, 0, 0⟩ = none := by decide
theorem test_asm_vsldoi128_va : assemble ⟨.vsldoi128, 0, 128, 0, 0⟩ = none := by decide
theorem test_asm_vsldoi128_vb : assemble ⟨.vsldoi128, 0, 0, 128, 0⟩ = none := by decide
theorem test_asm_vsldoi128_shb : assemble ⟨.vsldoi128, 0, 0, 0, 16⟩ = none := by decide

/-! ### Decode and encode: words written out bit by bit -/

/-- Form `VA` (R38, R39): OPCD, VRT = 10, VRA = 20, VRB = 30, bit 21, SHB = 7, XO = 44 (V5). -/
theorem test_decode_vsldoi_bits :
    decodeWord .refuse 0b000100_01010_10100_11110_0_0111_101100 = .ok (.vsldoi 10 20 30 7) := by decide

/-- Form `VX128_5` (R41 to R46): VD = 96 + 4, VA = 64 + 0, VB = 96 + 31, SH = 9, bit 27 = 1 (V6). -/
theorem test_decode_vsldoi128_bits :
    decodeWord .refuse 0b000100_00100_00000_11111_1_1001_0_1_11_11 = .ok (.vsldoi128 100 64 127 9) := by decide

/-- V6: each high register bit alone. -/
theorem test_decode_vsldoi128_high_bits :
    decodeWord .refuse 0x10000014 = .ok (.vsldoi128 32 0 0 0) ∧
    decodeWord .refuse 0x10000018 = .ok (.vsldoi128 64 0 0 0) ∧
    decodeWord .refuse 0x10000030 = .ok (.vsldoi128 0 32 0 0) ∧
    decodeWord .refuse 0x10000410 = .ok (.vsldoi128 0 64 0 0) ∧
    decodeWord .refuse 0x10000011 = .ok (.vsldoi128 0 0 32 0) ∧
    decodeWord .refuse 0x10000012 = .ok (.vsldoi128 0 0 64 0) := by decide

/-- V5 and V6: the encoders on rows of the tables. -/
theorem test_encode_rows :
    encode (.vsldoi 3 1 2 5) = 0x1061116C ∧ encode (.vsldoi 5 0 1 13) = 0x10A00B6C ∧
    encode (.vsldoi128 96 95 31 8) = 0x101FFE1C ∧ encode (.vsldoi128 2 100 100 0) = 0x10442433 := by decide

/-- V7: bit 21 of a `vsldoi` word under both values of VSLDOI_BIT21. -/
theorem test_decode_bit21 :
    decodeWord .refuse 0x1061156C = .error .reservedBit21 ∧
    decodeWord .ignore 0x1061156C = .ok (.vsldoi 3 1 2 5) ∧
    decodeWord .ignore 0x100007EC = .ok (.vsldoi 0 0 0 15) := by decide

/-- V7: words next to accepted ones, and words of other primary opcodes. -/
theorem test_decode_not_in_scope :
    decodeWord .refuse 0x1000002B = .error (.notInScope 0x1000002B) ∧
    decodeWord .refuse 0x10000020 = .error (.notInScope 0x10000020) ∧
    decodeWord .refuse 0x13FFFFEF = .error (.notInScope 0x13FFFFEF) ∧
    decodeWord .refuse 0x1400002C = .error (.notInScope 0x1400002C) ∧
    decodeWord .refuse 0x60000000 = .error (.notInScope 0x60000000) ∧
    decodeWord .refuse 0xFFFFFFFF = .error (.notInScope 0xFFFFFFFF) := by decide

/-- 20_memory.md R26: the bytes of the opcode word at ascending addresses. -/
theorem test_decode_bytes : decode .refuse [0x10, 0x00, 0x00, 0x2C, 0xAA] = .ok (.vsldoi 0 0 0 0, [0xAA]) := by decide

theorem test_decode_truncated : decode .refuse [0x10, 0x00, 0x00] = .error .truncated := by decide

/-! ### Values of 95_test_vectors.md -/

def vA : Vec := #v[0x00, 0x01, 0x02, 0x03, 0x04, 0x05, 0x06, 0x07, 0x08, 0x09, 0x0A, 0x0B, 0x0C, 0x0D, 0x0E, 0x0F]
def vB : Vec := #v[0x10, 0x11, 0x12, 0x13, 0x14, 0x15, 0x16, 0x17, 0x18, 0x19, 0x1A, 0x1B, 0x1C, 0x1D, 0x1E, 0x1F]
def vX : Vec := #v[0xDE, 0xAD, 0xBE, 0xEF, 0x01, 0x23, 0x45, 0x67, 0x89, 0xAB, 0xCD, 0xEF, 0xFE, 0xDC, 0xBA, 0x98]
def vY : Vec := #v[0x0F, 0x1E, 0x2D, 0x3C, 0x4B, 0x5A, 0x69, 0x78, 0x87, 0x96, 0xA5, 0xB4, 0xC3, 0xD2, 0xE1, 0xF0]

/-- V2: `X`, `Y` shifted by 9. -/
theorem test_window_X_Y_9 : window vX vY 9 =
    #v[0xAB, 0xCD, 0xEF, 0xFE, 0xDC, 0xBA, 0x98, 0x0F, 0x1E, 0x2D, 0x3C, 0x4B, 0x5A, 0x69, 0x78, 0x87] := by decide

/-- V1, rows 0 and 15. -/
theorem test_window_A_B_ends : window vA vB 0 = vA ∧ window vA vB 15 =
    #v[0x0F, 0x10, 0x11, 0x12, 0x13, 0x14, 0x15, 0x16, 0x17, 0x18, 0x19, 0x1A, 0x1B, 0x1C, 0x1D, 0x1E] := by decide

/-- 00_scope.md R7: byte 0 is the most significant. -/
theorem test_num_big_endian : num vA = 0x000102030405060708090A0B0C0D0E0F := by decide

/-! ### One instruction -/

/-- A launched state of `L` = 1 word at PROGRAM_BASE = pc = 0x00010000 with the registers of a list written, all
others unwritten, as V8 and V9 start. -/
def start (w : Word) (regs : List (VRNum × Vec)) : State :=
  regs.foldl (fun s r => writeVR s r.1 r.2)
    (Launch.state ⟨[w], { Params.standard with programBase := 0x10000 }, none, Vector.replicate 128 .unwritten,
      Untouched.zero, none⟩)

def regAfter (o : Host.Outcome State Fault Refusal) (n : VRNum) : Option VReg :=
  match o with
  | .next t => some (readVR t n)
  | _ => none

def pcAfter (o : Host.Outcome State Fault Refusal) : Option Addr :=
  match o with
  | .next t => some t.pc
  | _ => none

def faultOf (o : Host.Outcome State Fault Refusal) : Option Fault :=
  match o with
  | .fault f => some f
  | _ => none

def refusalOf (o : Host.Outcome State Fault Refusal) : Option Refusal :=
  match o with
  | .refused r => some r
  | _ => none

/-- V8, row 2: the destination is source A; the old value is used. -/
theorem test_vsldoi_vd_is_va : regAfter (step (start 0x10E7486C [(7, vX), (9, vY)])) 7 = some (.holds
    #v[0xAD, 0xBE, 0xEF, 0x01, 0x23, 0x45, 0x67, 0x89, 0xAB, 0xCD, 0xEF, 0xFE, 0xDC, 0xBA, 0x98, 0x0F]) := by decide

/-- V8, row 3: the destination is source B; source A is as it was, pc has advanced. -/
theorem test_vsldoi_vd_is_vb :
    regAfter (step (start 0x1127486C [(7, vX), (9, vY)])) 9 = some (.holds
      #v[0xAD, 0xBE, 0xEF, 0x01, 0x23, 0x45, 0x67, 0x89, 0xAB, 0xCD, 0xEF, 0xFE, 0xDC, 0xBA, 0x98, 0x0F]) ∧
    regAfter (step (start 0x1127486C [(7, vX), (9, vY)])) 7 = some (.holds vX) ∧
    pcAfter (step (start 0x1127486C [(7, vX), (9, vY)])) = some 0x10004 := by decide

/-- V8, row 6: three different high registers. -/
theorem test_vsldoi128_high : regAfter (step (start 0x1080FE5F [(64, vA), (127, vB)])) 100 = some (.holds
    #v[0x09, 0x0A, 0x0B, 0x0C, 0x0D, 0x0E, 0x0F, 0x10, 0x11, 0x12, 0x13, 0x14, 0x15, 0x16, 0x17, 0x18]) := by decide

/-- V8, row 8: a register rotated in place by the largest shift. -/
theorem test_vsldoi128_rotate : regAfter (step (start 0x13FFFFFF [(127, vX)])) 127 = some (.holds
    #v[0x98, 0xDE, 0xAD, 0xBE, 0xEF, 0x01, 0x23, 0x45, 0x67, 0x89, 0xAB, 0xCD, 0xEF, 0xFE, 0xDC, 0xBA]) := by decide

/-! ### The step's stops -/

/-- V9: source B is read even at SHB = 0; source A is read first; the destination need not be written. -/
theorem test_unwritten_faults :
    faultOf (step (start 0x1061102C [(1, vA)])) = some (.unwrittenVR 2) ∧
    faultOf (step (start 0x1061116C [])) = some (.unwrittenVR 1) ∧
    regAfter (step (start 0x10C5282C [(5, vX)])) 6 = some (.holds vX) := by decide

/-- P5: the fault is recorded, the registers and pc stay. -/
theorem test_fault_recorded :
    (stepRecorded (start 0x1061116C [(1, vA)])).record = some (.fault (.unwrittenVR 2)) ∧
    (stepRecorded (start 0x1061116C [(1, vA)])).pc = 0x10000 ∧
    readVR (stepRecorded (start 0x1061116C [(1, vA)])) 3 = .unwritten := by decide

/-- P6, step 2, and V7: refusals of the decoder at the step. -/
theorem test_step_refusals :
    refusalOf (step (start 0x60000000 [])) = some (.notInScope 0x60000000) ∧
    refusalOf (step (start 0x1000042C [])) = some .reservedBit21 := by decide

/-- R66, R77: the step refuses under the name of a premise of the run that does not hold. -/
theorem test_step_premises :
    refusalOf (step { start 0x1000002C [] with
      params := { Params.standard with programBase := 0x10000, vecAvailable := false } }) =
      some (.premise .vecAvailable) ∧
    refusalOf (step { start 0x1000002C [] with record := some (.refusal .pcOverflow) }) = some (.premise .noFault) ∧
    refusalOf (step { start 0x1000002C [] with pc := 0x10002 }) = some (.premise .alignedPc) ∧
    refusalOf (step { start 0x1000002C [] with pc := 0x10008 }) = some .fetchOutsideText ∧
    refusalOf (step { start 0x1000002C [] with pc := 0x10004 }) = some .runOver := by decide

/-- R18: pc + 4 does not fit in 32 bits. -/
theorem test_pc_overflow : refusalOf (step (State.withFetchWord { State.reset with pc := 0xFFFFFFFC } 32 0x1000002C)) =
    some .pcOverflow := by decide

/-! ### Launch and reset -/

def oneWord (base : Addr) (pc : Option Addr) (bits : PcBits) : Launch :=
  ⟨[0x1000002C], { Params.standard with programBase := base, pcBits := bits }, pc,
    Vector.replicate 128 (.holds Vec.zero), Untouched.zero, none⟩

/-- V10: the last address that fits, the first that does not, a misaligned pc. -/
theorem test_launch_premises :
    pcAfter (launch (oneWord 0xFFFFFFF8 none .b32)) = some 0xFFFFFFF8 ∧
    refusalOf (launch (oneWord 0xFFFFFFFC none .b32)) = some (.premise .textFits) ∧
    pcAfter (launch (oneWord 0xFFFFFFFC none .b64)) = some 0xFFFFFFFC ∧
    refusalOf (launch (oneWord 0x00010000 (some 0x00010002) .b32)) = some (.premise .alignedPc) ∧
    refusalOf (launch (oneWord 0x00010000 (some 0x00010008) .b32)) = some (.premise .pcInText) ∧
    refusalOf (launch (oneWord 0x00010001 (some 0x00010004) .b32)) = some (.premise .alignedBase) ∧
    refusalOf (launch { oneWord 0x00010000 none .b32 with record := some (.fault (.unwrittenVR 1)) }) =
      some (.premise .noFault) := by decide

/-- P7: the empty program is over at once, which is what State.reset holds. -/
theorem test_reset_run_over : runOver State.reset = true ∧ refusalOf (step State.reset) = some .runOver := by decide

/-- Each row of the opcode table as the first instruction after reset. -/
theorem test_first_instruction_runs :
    pcAfter (step (State.reset.withFetchWord 32 0x1000002C)) = some 4 ∧
    pcAfter (step (State.reset.withFetchWord 32 0x10000010)) = some 4 := by decide

/-! ### Data memory (20_memory.md R25: big-endian) -/

theorem test_mem_big_endian :
    (memWrite State.reset 0x100 2 0x1234).other.dataMem = [(0x100, 0x12), (0x101, 0x34)] ∧
    memRead (memWrite State.reset 0x100 2 0x1234) 0x100 2 = some 0x1234 ∧ memRead State.reset 0x100 1 = none := by decide

/-! ### Witnesses: states and operands that meet the hypotheses of the statements -/

/-- A launched program of one `vsldoi v3, v1, v2, 5`, every register written. -/
def ready : State := (oneWord 0x10000 none .b32).state

/-- `ready`, with the word of another instruction in its text. -/
def readyWith (w : Word) : State := { ready with text := layWords 0x10000 [w] }

theorem ready_launched : launch (oneWord 0x10000 none .b32) = .next ready := rfl
theorem ready_standing : Standing ready := ⟨rfl, rfl, rfl⟩
theorem ready_allWritten : AllWritten ready := fun n => ⟨Vec.zero, readVR_reset n⟩
theorem ready_runInv : RunInv ready :=
  ⟨by decide, by decide, by decide, by decide, by decide, by unfold TextLaid; decide, by decide, by decide⟩

/-- The hypotheses on the pc that the step statements share. -/
theorem ready_pc : ready.pc.toNat % 4 = 0 ∧ base ready ≤ ready.pc.toNat ∧ ready.pc.toNat < textEnd ready ∧
    ready.pc.toNat + 4 < 2 ^ ready.params.pcBits.width := by decide

theorem witness_DecodeInvertsEncode :
    WellFormed (.vsldoi 31 31 31 15) ∧ WellFormed (.vsldoi128 127 127 127 15) := by decide

theorem witness_EncodingFunctions :
    WellFormed (.vsldoi 31 31 31 15) ∧ (0x13FFFFFF : Word) &&& 0xFC000010 = 0x10000010 ∧
    (0x13FFFBEC : Word) &&& 0xFC00003F = 0x1000002C ∧ ((0x13FFFBEC : Word) >>> 10) &&& 1 = 0 := by decide

theorem witness_Vsldoi128OperandFields : decodeWord .refuse 0x13FFFFFF = .ok (.vsldoi128 127 127 127 15) := by decide

theorem witness_EveryInstructionIsOneWord :
    decode .refuse [0x13, 0xFF, 0xFF, 0xFF] = .ok (.vsldoi128 127 127 127 15, []) ∧
    ∃ t, exec (.vsldoi128 127 127 127 15) ready = .next t :=
  ⟨by decide, _, exec_of_holds (readVR_reset _) (readVR_reset _)⟩

theorem witness_OneSharedRegisterFile :
    decodeWord .refuse 0x13FFFBEC = .ok (.vsldoi 31 31 31 15) ∧
    (31 : VRNum).toNat ≤ 31 ∧
    ∃ t, exec (.vsldoi128 31 127 127 15) ready = .next t ∧ readVR t 31 = .holds (window Vec.zero Vec.zero 15) ∧
      (Instr.vsldoi 0 31 31 0).va = (Instr.vsldoi128 31 127 127 15).vd ∧ Written t 31 ∧
      (Instr.vsldoi 0 31 31 0).shb = 0 :=
  ⟨by decide, by decide, _, exec_of_holds (readVR_reset _) (readVR_reset _), readVR_writeVR_same _ _ _, rfl,
    ⟨_, readVR_writeVR_same _ _ _⟩, rfl⟩

theorem witness_VsldoiExecutes :
    (readVR ready 31 = .holds Vec.zero ∧ readVR ready 0 = .holds Vec.zero) ∧
    readVR (start 0x1000002C []) 31 = .unwritten ∧
    (Written (start 0x1000002C [(1, vA)]) 1 ∧ readVR (start 0x1000002C [(1, vA)]) 31 = .unwritten) ∧
    ((0x13FFFFEC : Word) &&& 0xFC00003F = 0x1000002C ∧ srcField 0x13FFFBEC 21 21 = 0#1 ∧
      (0x13FFFBEC : Word) &&& 0xFC00003F = 0x1000002C) :=
  ⟨⟨readVR_reset _, readVR_reset _⟩, by decide, ⟨⟨vA, by decide⟩, by decide⟩, by decide⟩

theorem witness_Vsldoi128Executes :
    (readVR ready 127 = .holds Vec.zero ∧ readVR ready 0 = .holds Vec.zero) ∧
    readVR (start 0x1000002C []) 127 = .unwritten ∧
    (Written (start 0x1000002C [(127, vA)]) 127 ∧ readVR (start 0x1000002C [(127, vA)]) 126 = .unwritten) ∧
    (0x13FFFFFF : Word) &&& 0xFC000010 = 0x10000010 :=
  ⟨⟨readVR_reset _, readVR_reset _⟩, by decide, ⟨⟨vA, by decide⟩, by decide⟩, by decide⟩

theorem witness_UnwrittenSourceFaults :
    readVR (start 0x1000002C []) (Instr.vsldoi 3 1 2 0).va = .unwritten ∧
    (readVR (start 0x1000002C [(1, vA)]) (Instr.vsldoi 3 1 2 0).va = .holds vA ∧
      readVR (start 0x1000002C [(1, vA)]) (Instr.vsldoi 3 1 2 0).vb = .unwritten) ∧
    launch (oneWord 0x10000 none .b32) = .next ready := ⟨by decide, by decide, rfl⟩

theorem witness_CompletesExactlyOnWrittenSources :
    exec (.vsldoi 3 1 2 0) (start 0x1000002C []) = .fault (.unwrittenVR 1) := rfl

theorem witness_NoOperandTraps : AllWritten ready := ready_allWritten

theorem witness_FrameOfBothInstructions :
    (∃ t, exec (.vsldoi 31 0 31 15) ready = .next t) ∧ ∃ t, exec (.vsldoi128 127 0 127 15) ready = .next t :=
  ⟨⟨_, exec_of_holds (readVR_reset _) (readVR_reset _)⟩, _, exec_of_holds (readVR_reset _) (readVR_reset _)⟩

theorem witness_FlagsNeitherReadNorWritten : ∃ t, exec (.vsldoi 31 0 31 15) ready = .next t :=
  ⟨_, exec_of_holds (readVR_reset _) (readVR_reset _)⟩

/-- Other contents of the text at the pc's own four bytes are excluded; a text with more bytes is not. -/
theorem witness_MemoryTouchedOnlyByFetch :
    ∀ a, ready.pc.toNat ≤ a → a < ready.pc.toNat + 4 →
      Memory.read ((0, 0xFF) :: ready.text) a = ready.text.read a := by
  intro a h _
  have h' : 0x10000 ≤ a := h
  rw [Memory.read, if_neg (by omega)]

theorem witness_ResultDependsOnOperandsOnly :
    readVR ready (Instr.vsldoi 3 1 2 5).va = readVR State.reset (Instr.vsldoi 3 1 2 5).va ∧
    readVR ready (Instr.vsldoi 3 1 2 5).vb = readVR State.reset (Instr.vsldoi 3 1 2 5).vb := ⟨rfl, rfl⟩

/-- The second instruction reads what the first wrote, in both places, across the encodings. -/
theorem witness_BackToBackDependence :
    readVR ready (Instr.vsldoi128 5 96 33 1).va = .holds Vec.zero ∧
    readVR ready (Instr.vsldoi128 5 96 33 1).vb = .holds Vec.zero ∧
    (Instr.vsldoi 6 5 5 1).va = (Instr.vsldoi128 5 96 33 1).vd ∧
    (Instr.vsldoi 6 5 5 1).vb = (Instr.vsldoi128 5 96 33 1).vd ∧
    readVR (advancePc (writeVR ready 5 vA)) (Instr.vsldoi 6 5 5 1).va = .holds vA :=
  ⟨readVR_reset _, readVR_reset _, rfl, rfl, readVR_writeVR_same _ _ _⟩

theorem witness_StepRunsDecodedInstruction :
    Standing ready ∧ ready.text.readBytes ready.pc.toNat 4 = some [0x10, 0x00, 0x00, 0x2C] ∧
    decode ready.params.bit21 [0x10, 0x00, 0x00, 0x2C] = .ok (.vsldoi 0 0 0 0, []) :=
  ⟨ready_standing, by decide, by decide⟩

/-- A next state, a fault, and a refusal other than the end of the run, with nothing recorded. -/
theorem witness_StepInOrder :
    Standing ready ∧ (∃ t, step ready = .next t) ∧
    step (start 0x1061116C []) = .fault (.unwrittenVR 1) ∧
    ((start 0x60000000 []).record = none ∧ step (start 0x60000000 []) = .refused (.notInScope 0x60000000) ∧
      Refusal.notInScope 0x60000000 ≠ .runOver) :=
  ⟨ready_standing, ⟨_, rfl⟩, rfl, rfl, rfl, by decide⟩

theorem witness_PcAdvancesByFour : ∃ t, step ready = .next t := ⟨_, rfl⟩

/-- The last pc of a 32-bit machine, inside a text, at a word that decodes. -/
theorem witness_PcNeverWraps :
    launch (oneWord 0x10000 none .b32) = .next ready ∧ (∃ t, step ready = .next t) ∧
    (let s := (oneWord 0xFFFFFFFC none .b32).state
     Standing s ∧ s.pc.toNat % 4 = 0 ∧ base s ≤ s.pc.toNat ∧ s.pc.toNat < textEnd s ∧
      s.text.readBytes s.pc.toNat 4 = some [0x10, 0x00, 0x00, 0x2C] ∧
      decode s.params.bit21 [0x10, 0x00, 0x00, 0x2C] = .ok (.vsldoi 0 0 0 0, []) ∧
      2 ^ s.params.pcBits.width ≤ s.pc.toNat + 4) :=
  ⟨rfl, ⟨_, rfl⟩, ⟨rfl, rfl, rfl⟩, by decide, by decide, by decide, by decide, by decide, by decide⟩

theorem witness_Bit21Parameter :
    Standing (readyWith 0x13FFFFEC) ∧
    (readyWith 0x13FFFFEC).text.readBytes (readyWith 0x13FFFFEC).pc.toNat 4 = some (bytesOfWord 0x13FFFFEC) ∧
    (0x13FFFFEC : Word) &&& 0xFC00043F = 0x1000042C ∧ (readyWith 0x13FFFFEC).params.bit21 = .refuse :=
  ⟨⟨rfl, rfl, rfl⟩, by decide, by decide, rfl⟩

theorem witness_OtherWordsRefused :
    Standing (readyWith 0x13FFFFEF) ∧
    (readyWith 0x13FFFFEF).text.readBytes (readyWith 0x13FFFFEF).pc.toNat 4 = some (bytesOfWord 0x13FFFFEF) ∧
    (0x13FFFFEF : Word) &&& 0xFC00003F ≠ 0x1000002C ∧ (0x13FFFFEF : Word) &&& 0xFC000010 ≠ 0x10000010 :=
  ⟨⟨rfl, rfl, rfl⟩, by decide, by decide, by decide⟩

theorem witness_OnlyFaultIsUnwrittenRead :
    step (start 0x1061116C []) = .fault (.unwrittenVR 1) ∧ AllWritten ready := ⟨rfl, ready_allWritten⟩

/-- The end of a run, a fault, and a state with a record: each takes no step. -/
theorem witness_StopsAreRecordedForGood :
    (∀ t, step State.reset ≠ .next t) ∧ (∀ t, step (start 0x1061116C []) ≠ .next t) ∧
    ({ ready with record := some (.refusal .pcOverflow) } : State).record = some (.refusal .pcOverflow) := by
  have h1 : step State.reset = .refused .runOver := rfl
  have h2 : step (start 0x1061116C []) = .fault (.unwrittenVR 1) := rfl
  refine ⟨fun t => ?_, fun t => ?_, rfl⟩
  · rw [h1]; exact nofun
  · rw [h2]; exact nofun

theorem witness_LaunchPremisesNamed : ¬LaunchPremise (oneWord 0xFFFFFFFC none .b32) .textFits := by
  show ¬0xFFFFFFFC + 4 * 1 < 2 ^ 32
  decide

theorem witness_LaunchLaysOutProgram :
    launch (oneWord 0x10000 none .b32) = .next ready ∧ 0 < (oneWord 0x10000 none .b32).text.length ∧
    (oneWord 0x10000 none .b32).pc = none ∧
    (oneWord 0x10000 (some 0x10004) .b32).pc = some 0x10004 ∧
    ({ ready with record := some (.refusal .pcOverflow) } : State).record = some (.refusal .pcOverflow) :=
  ⟨rfl, by decide, rfl, rfl, rfl⟩

theorem witness_FetchIsBigEndian : decodeWord .refuse 0x1000002C = .ok (.vsldoi 0 0 0 0) := by decide

theorem witness_LaunchEstablishesInvariant :
    launch (oneWord 0x10000 none .b32) = .next ready ∧ Memory.wf (oneWord 0x10000 none .b32).other.dataMem :=
  ⟨rfl, by decide⟩

theorem witness_StepKeepsInvariant : RunInv ready ∧ ∃ t, step ready = .next t := ⟨ready_runInv, _, rfl⟩

theorem witness_WrittenStaysWritten : (∃ t, step ready = .next t) ∧ Written ready 0 ∧ AllWritten ready :=
  ⟨⟨_, rfl⟩, ready_allWritten 0, ready_allWritten⟩

theorem witness_ProgramTextFixed : ∃ t, Host.Core.run Sys2Proof.core 1 ready = .next t := ⟨_, rfl⟩

theorem witness_Progress :
    RunInv ready ∧ Standing ready ∧ AllWritten ready ∧ ready.pc.toNat ≠ textEnd ready ∧
    ∀ bs, ready.text.readBytes ready.pc.toNat 4 = some bs →
      ∃ i rest, decode ready.params.bit21 bs = .ok (i, rest) := by
  refine ⟨ready_runInv, ready_standing, ready_allWritten, by decide, ?_⟩
  intro bs h
  have e : ready.text.readBytes ready.pc.toNat 4 = some [0x10, 0x00, 0x00, 0x2C] := by decide
  cases e.symm.trans h
  exact ⟨.vsldoi 0 0 0 0, [], by decide⟩

theorem witness_RunTakesExactlyLSteps :
    RunInv ready ∧ Standing ready ∧ ready.pc = ready.params.programBase ∧
    (∃ t, Host.Core.run Sys2Proof.core ready.textLen ready = .next t) ∧
    0 < ready.textLen ∧ Host.Core.run Sys2Proof.core 0 ready = .next ready :=
  ⟨ready_runInv, ready_standing, rfl, ⟨_, rfl⟩, by decide, rfl⟩

theorem witness_PlacedWordRunsNext :
    Standing State.reset ∧ State.reset.pc.toNat % 4 = 0 ∧
    State.reset.pc.toNat + 4 < 2 ^ State.reset.params.pcBits.width ∧
    decodeWord State.reset.params.bit21 0x13FFFFFF = .ok (.vsldoi128 127 127 127 15) :=
  ⟨⟨rfl, rfl, rfl⟩, by decide, by decide, by decide⟩

end Sys2Proof.Tests
end

section
/-! PROOF. What an instruction reads and leaves unchanged (10_state.md R17, R20). -/

namespace Sys2Proof.Machine

/-! ### The frame of an instruction -/

/-- Writing one vector register and advancing the pc is the most R20 allows. -/
theorem unchanged_advancePc_writeVR (s : State) (vd : VRNum) (v : Vec) :
    Unchanged s (advancePc (writeVR s vd v)) vd where
  regs n hn := by rw [readVR_advancePc, readVR_writeVR_other (h := hn)]
  status := rfl
  gpr _ := rfl
  fpr _ := rfl
  dataBytes _ := rfl
  textBytes _ := rfl
  textLen := rfl
  params := rfl
  record := rfl

theorem written_advancePc_writeVR (s : State) (vd : VRNum) (v : Vec) :
    Written (advancePc (writeVR s vd v)) vd :=
  ⟨v, by rw [readVR_advancePc, readVR_writeVR_same]⟩

/-- Settles O21: the next state is the old one with `VR[VD]` written and the pc advanced. -/
theorem frameOfBothInstructions : Obligations.FrameOfBothInstructions := by
  intro i s t h
  obtain ⟨a, b, -, -, rfl⟩ := exec_next.1 h
  exact ⟨unchanged_advancePc_writeVR .., written_advancePc_writeVR .., rfl, rfl⟩

/-! ### Instructions read the vector registers only -/

/-- An outcome with its next state, if it has one, changed by `g`. -/
def mapNext (g : State → State) : Host.Outcome State Fault Refusal → Host.Outcome State Fault Refusal
  | .next t => .next (g t)
  | .fault f => .fault f
  | .refused r => .refused r

theorem readSources_congr {s s' : State} (h : s'.vr = s.vr) (va vb : VRNum) :
    readSources s' va vb = readSources s va vb := by
  simp only [readSources, readVR, h]

/-- From two states with the same vector registers an instruction has the same outcome, up to the difference `g`
between the states that the writes to `VR[VD]` and the pc leave. -/
theorem exec_eq_mapNext {i : Instr} {s s' : State} {g : State → State} (hvr : s'.vr = s.vr)
    (hg : ∀ v, advancePc (writeVR s' i.vd v) = g (advancePc (writeVR s i.vd v))) :
    exec i s' = mapNext g (exec i s) := by
  simp only [exec_eq_shiftDouble, shiftDouble, readSources_congr hvr, hg]
  cases readSources s i.va i.vb <;> rfl

/-! ### The next pc -/

/-- Both values of `PC_BITS` fit in the 64 bits of an address. -/
theorem lt_two_pow_64_of_lt_pcBits {n : Nat} {w : PcBits} (h : n < 2 ^ w.width) : n < 2 ^ 64 :=
  h.trans_le (Nat.pow_le_pow_right (by decide) (by cases w <;> decide))

/-- A step checks `pc + 4` against `PC_BITS` first, so the addition does not wrap. -/
theorem step_pc_toNat {s t : State} (h : step s = .next t) : t.pc.toNat = s.pc.toNat + 4 := by
  obtain ⟨-, -, -, -, hfit, -⟩ := step_next h
  obtain ⟨vd, v, rfl⟩ := step_next_state h
  simpa using Nat.mod_eq_of_lt (lt_two_pow_64_of_lt_pcBits hfit)

/-- Settles O28: a step adds 4 without wrapping, and only the pc's own advance depends on the pc. -/
theorem pcAdvancesByFour : Obligations.PcAdvancesByFour := by
  refine ⟨fun s t h => step_pc_toNat h, fun i s p => ?_⟩
  have hpc : exec i { s with pc := p } = mapNext (fun t => { t with pc := p + 4 }) (exec i s) :=
    exec_eq_mapNext rfl fun _ => rfl
  rw [hpc]
  cases exec i s <;> rfl

end Sys2Proof.Machine
end

section
/-! PROOF. What memory an instruction and a step read (20_memory.md R28). -/

namespace Sys2Proof.Machine

/-! ### What a fetch reads -/

/-- A read of `n` bytes depends on those bytes alone. -/
theorem Memory.readBytes_congr {m m' : Memory} {a n : Nat}
    (h : ∀ b, a ≤ b → b < a + n → m'.read b = m.read b) : m'.readBytes a n = m.readBytes a n := by
  induction n generalizing a with
  | zero => rfl
  | succ n ih =>
    have hhead : m'.read a = m.read a := h a (Nat.le_refl a) (by omega)
    have htail : m'.readBytes (a + 1) n = m.readBytes (a + 1) n :=
      ih fun b hlo hhi => h b (by omega) (by omega)
    simp only [Memory.readBytes, hhead, htail]

/-- Fetch and decode depend on the pc, `VSLDOI_BIT21` and the four bytes of the text at the pc. -/
theorem fetchInstr_congr {s s' : State} (hpc : s'.pc = s.pc) (hbit : s'.params.bit21 = s.params.bit21)
    (htext : ∀ a, s.pc.toNat ≤ a → a < s.pc.toNat + 4 → s'.text.read a = s.text.read a) :
    fetchInstr s' = fetchInstr s := by
  have hbytes : fetchBytes s' = fetchBytes s := by
    rw [fetchBytes, hpc]
    exact Memory.readBytes_congr htext
  rw [fetchInstr, fetchInstr, hbytes, hbit]

/-! ### A step under a change of state -/

/-- From two states that meet the same checks and fetch the same instruction, a step has the same outcome up to a
difference `g` that every instruction keeps. -/
theorem step_eq_mapNext {s s' : State} {g : State → State} (hpre : refusalBeforeFetch s' = refusalBeforeFetch s)
    (hfetch : fetchInstr s' = fetchInstr s) (hover : pcOverflows s' = pcOverflows s)
    (hexec : ∀ i, exec i s' = mapNext g (exec i s)) : step s' = mapNext g (step s) := by
  rw [step, step, hpre, hfetch, hover]
  cases refusalBeforeFetch s with
  | some r => rfl
  | none =>
    cases fetchInstr s with
    | error r => rfl
    | ok i =>
      cases pcOverflows s with
      | true => rfl
      | false => exact hexec i

/-! ### The state with other memories -/

/-- The state with another data memory. -/
def withDataMem (data : Memory) (s : State) : State := { s with other := { s.other with dataMem := data } }

/-- The state with another program text and another data memory. -/
def withMemories (text data : Memory) (s : State) : State := { withDataMem data s with text := text }

/-- An instruction neither reads nor writes data memory. -/
theorem exec_withDataMem (i : Instr) (data : Memory) (s : State) :
    exec i (withDataMem data s) = mapNext (withDataMem data) (exec i s) :=
  exec_eq_mapNext rfl fun _ => rfl

/-- An instruction neither reads nor writes the text or data memory. -/
theorem exec_withMemories (i : Instr) (text data : Memory) (s : State) :
    exec i (withMemories text data s) = mapNext (withMemories text data) (exec i s) :=
  exec_eq_mapNext rfl fun _ => rfl

/-- A step reads its own four bytes of the text, and no other memory. -/
theorem step_withMemories {s : State} {text : Memory} (data : Memory)
    (h : ∀ a, s.pc.toNat ≤ a → a < s.pc.toNat + 4 → text.read a = s.text.read a) :
    step (withMemories text data s) = mapNext (withMemories text data) (step s) :=
  have hfetch : fetchInstr (withMemories text data s) = fetchInstr s := fetchInstr_congr rfl rfl h
  step_eq_mapNext rfl hfetch rfl fun i => exec_withMemories i text data s

/-- Settles O23: an instruction reads vector registers only, and the one memory access of a step is the fetch. -/
theorem memoryTouchedOnlyByFetch : Obligations.MemoryTouchedOnlyByFetch := by
  refine ⟨fun i s m => (exec_withDataMem i m s).trans ?_,
    fun s text data h => (step_withMemories data h).trans ?_⟩
  · cases exec i s <;> rfl
  · cases step s <;> rfl

end Sys2Proof.Machine
end

section
/-! PROOF. One instruction is one word (30_encoding.md R37). -/

namespace Sys2Proof

/-- The four bytes of the word of four bytes are those bytes. -/
@[simp] theorem bytesOfWord_wordOfBytes (b0 b1 b2 b3 : Byte) :
    bytesOfWord (wordOfBytes b0 b1 b2 b3) = [b0, b1, b2, b3] := by
  simp only [bytesOfWord, List.cons.injEq, and_true]
  refine ⟨?_, ?_, ?_, ?_⟩ <;>
    (apply BitVec.eq_of_getElem_eq; intro k hk; interval_cases k <;> simp [wordOfBytes])

/-- Bytes that decode to an instruction are the bytes of a word that decodes to it, and the rest. -/
theorem decode_ok_word {p : Bit21} {bs rest : List Byte} {i : Instr} (h : decode p bs = .ok (i, rest)) :
    ∃ w, bs = bytesOfWord w ++ rest ∧ decodeWord p w = .ok i := by
  obtain ⟨b0, b1, b2, b3, rfl, hw⟩ := decode_ok h
  exact ⟨wordOfBytes b0 b1 b2 b3, by simp, hw⟩

end Sys2Proof

namespace Sys2Proof.Machine

/-- An instruction that answers a next state leaves the pc at the following word (10_state.md R17). -/
theorem exec_next_pc {i : Instr} {s t : State} (h : exec i s = .next t) : t.pc = s.pc + 4 := by
  obtain ⟨a, b, -, -, rfl⟩ := exec_next.1 h
  rw [advancePc_pc, writeVR_pc]

/-- Settles O5: the decoded bytes are those of one word, and both forms decode under primary opcode 4 only. -/
theorem everyInstructionIsOneWord : Obligations.EveryInstructionIsOneWord := by
  intro p bs rest i h
  obtain ⟨w, hbytes, hw⟩ := decode_ok_word h
  obtain ⟨hopcd, -⟩ := decodeWord_ok hw
  exact ⟨⟨w, hbytes, hopcd⟩, fun s t => exec_next_pc⟩

end Sys2Proof.Machine
end

section
/-! PROOF. The window as bytes (40_vector_shift_double.md R55). -/

namespace Sys2Proof.Machine

/-- The concatenation `A ‖ B` of 00_scope.md R8 as a list. -/
theorem catByte_eq_getElem_append (a b : Vec) {i : Nat} (h : i < 32) :
    catByte a b i h = (a.toList ++ b.toList)[i]'(by simpa using h) := by
  by_cases ha : i < 16
  · rw [catByte_low a b ha, List.getElem_append_left (by simpa using ha), Vector.getElem_toList]
  · rw [catByte_high a b h (Nat.le_of_not_lt ha), List.getElem_append_right (by simpa using ha)]
    simp

theorem window_toList_eq_take_drop (a b : Vec) (s : Shb) :
    (window a b s).toList = ((a.toList ++ b.toList).drop s.toNat).take 16 := by
  have hs : s.toNat < 16 := s.isLt
  apply List.ext_getElem
  · simp only [Vector.length_toList, List.length_take, List.length_drop, List.length_append]
    omega
  · intro j hj _
    rw [Vector.getElem_toList, window_getElem, catByte_eq_getElem_append, List.getElem_take, List.getElem_drop]

/-- The window is the last `16 - s` bytes of `A` and then the first `s` bytes of `B`. -/
theorem window_toList (a b : Vec) (s : Shb) :
    (window a b s).toList = a.toList.drop s.toNat ++ b.toList.take s.toNat := by
  have hs : s.toNat < 16 := s.isLt
  have hfill : 16 - (16 - s.toNat) = s.toNat := by omega
  rw [window_toList_eq_take_drop, List.drop_append_of_le_length (by simpa using hs.le), List.take_append,
    List.take_of_length_le (by simp)]
  simp [hfill]

/-- Settles O9: the bytes are those of the concatenation, cut where `A` ends. -/
theorem windowIsSixteenBytesOfConcatenation : Obligations.WindowIsSixteenBytesOfConcatenation := by
  intro a b s
  have hlen : (a.toList.drop s.toNat).length = 16 - s.toNat := by simp
  refine ⟨fun j h => ?_, fun j h => ?_, window_toList_eq_take_drop a b s, ?_, ?_⟩
  · exact (window_getElem a b s j j.isLt).trans (catByte_low a b (by omega))
  · exact (window_getElem a b s j j.isLt).trans (catByte_high a b (by omega) h)
  · rw [window_toList, List.take_left' hlen]
  · rw [window_toList, List.drop_left' hlen]

end Sys2Proof.Machine
end

section
/-! PROOF. The window as numbers (40_vector_shift_double.md R60). -/

namespace Sys2Proof.Machine

/-! ### Big-endian numbers -/

/-- The number of bytes, the most significant first, in Mathlib's digits, the least significant first. -/
theorem numOfBytes_eq_ofDigits (bs : List Byte) :
    numOfBytes bs = Nat.ofDigits 256 (bs.map BitVec.toNat).reverse := by
  simp [numOfBytes, Nat.ofDigits_eq_foldr, List.foldl_map, Nat.mul_comm, Nat.add_comm]

theorem numOfBytes_append (bs cs : List Byte) :
    numOfBytes (bs ++ cs) = numOfBytes bs * 2 ^ (8 * cs.length) + numOfBytes cs := by
  simp only [numOfBytes_eq_ofDigits, List.map_append, List.reverse_append, Nat.ofDigits_append,
    List.length_reverse, List.length_map, pow_mul]
  ring

theorem numOfBytes_lt (bs : List Byte) : numOfBytes bs < 2 ^ (8 * bs.length) := by
  have hdigit : ∀ x ∈ (bs.map BitVec.toNat).reverse, x < 256 := by
    simp only [List.mem_reverse, List.mem_map]
    rintro _ ⟨b, -, rfl⟩
    exact b.isLt
  simpa [numOfBytes_eq_ofDigits, pow_mul] using Nat.ofDigits_lt_base_pow_length (by decide) hdigit

/-- The bytes of a list by their weights, as `num` weighs them (00_scope.md R7). -/
theorem numOfBytes_ofFn {n : Nat} (f : Fin (n + 1) → Byte) :
    numOfBytes (List.ofFn f) = ∑ i, (f i).toNat * 256 ^ (n - i.val) := by
  induction n with
  | zero => simp [numOfBytes]
  | succ n ih =>
    have hweight : ∀ i : Fin (n + 1), 256 ^ (n + 1 - i.val) = 256 ^ (n - i.val) * 256 := fun i => by
      rw [Nat.succ_sub i.is_le, pow_succ]
    rw [List.ofFn_succ', List.concat_eq_append, numOfBytes_append, ih,
      Fin.sum_univ_castSucc (n := n + 1)]
    simp [numOfBytes, hweight, ← Nat.mul_assoc, Finset.sum_mul]

/-- `num` is the number of the value's 16 bytes. -/
theorem num_eq_numOfBytes (v : Vec) : num v = numOfBytes v.toList := by
  have hv : v.toList = List.ofFn fun i : Fin 16 => v[i] := by
    rw [← Vector.toList_ofFn]
    exact congrArg Vector.toList (Vector.ofFn_getElem).symm
  rw [hv, numOfBytes_ofFn, num]

theorem num_lt (v : Vec) : num v < 2 ^ 128 := by
  simpa [num_eq_numOfBytes] using numOfBytes_lt v.toList

/-! ### The window as numbers -/

/-- A value as its first `s` bytes, which a window takes from `B`, and the rest, which it takes from `A`. -/
theorem num_eq_take_drop (v : Vec) (s : Shb) :
    num v = numOfBytes (v.toList.take s.toNat) * 2 ^ (128 - 8 * s.toNat) + numOfBytes (v.toList.drop s.toNat) := by
  rw [num_eq_numOfBytes, ← List.take_append_drop s.toNat v.toList, numOfBytes_append]
  simp [Nat.mul_sub]

theorem numOfBytes_take_lt (v : Vec) (s : Shb) : numOfBytes (v.toList.take s.toNat) < 2 ^ (8 * s.toNat) := by
  have hs : s.toNat < 16 := s.isLt
  simpa [Nat.min_eq_left hs.le] using numOfBytes_lt (v.toList.take s.toNat)

theorem numOfBytes_drop_lt (v : Vec) (s : Shb) :
    numOfBytes (v.toList.drop s.toNat) < 2 ^ (128 - 8 * s.toNat) := by
  simpa [Nat.mul_sub] using numOfBytes_lt (v.toList.drop s.toNat)

/-- `2 ^ 128` cut at the shift. -/
theorem two_pow_shift_mul (s : Shb) : 2 ^ (8 * s.toNat) * 2 ^ (128 - 8 * s.toNat) = 2 ^ 128 := by
  have hs : s.toNat < 16 := s.isLt
  rw [← pow_add]
  congr 1
  omega

/-- Shifting left drops the first `s` bytes (R60). -/
theorem num_shiftLeft_mod (v : Vec) (s : Shb) :
    (num v <<< (8 * s.toNat)) % 2 ^ 128 = numOfBytes (v.toList.drop s.toNat) * 2 ^ (8 * s.toNat) := by
  have hlt : numOfBytes (v.toList.drop s.toNat) * 2 ^ (8 * s.toNat) < 2 ^ 128 := by
    rw [← two_pow_shift_mul s, Nat.mul_comm]
    exact Nat.mul_lt_mul_of_pos_left (numOfBytes_drop_lt v s) (Nat.two_pow_pos _)
  rw [Nat.shiftLeft_eq, num_eq_take_drop v s, Nat.add_mul, Nat.mul_assoc, Nat.mul_comm (2 ^ _) (2 ^ _),
    two_pow_shift_mul, Nat.mul_add_mod_self_right, Nat.mod_eq_of_lt hlt]

/-- Shifting right keeps the first `s` bytes (R60). -/
theorem num_shiftRight (v : Vec) (s : Shb) :
    num v >>> (128 - 8 * s.toNat) = numOfBytes (v.toList.take s.toNat) := by
  rw [Nat.shiftRight_eq_div_pow, num_eq_take_drop v s, Nat.add_comm,
    Nat.add_mul_div_right _ _ (Nat.two_pow_pos _), Nat.div_eq_of_lt (numOfBytes_drop_lt v s), Nat.zero_add]

/-- The sum form of R60. -/
theorem num_window (a b : Vec) (s : Shb) :
    num (window a b s) = (num a <<< (8 * s.toNat)) % 2 ^ 128 + num b >>> (128 - 8 * s.toNat) := by
  have hs : s.toNat < 16 := s.isLt
  rw [num_eq_numOfBytes, window_toList, numOfBytes_append, num_shiftLeft_mod, num_shiftRight]
  simp [Nat.min_eq_left hs.le]

/-- The window is a bit field of the 256-bit concatenation (R60). -/
theorem num_window_eq_field (a b : Vec) (s : Shb) :
    num (window a b s) = ((num a * 2 ^ 128 + num b) >>> (128 - 8 * s.toNat)) % 2 ^ 128 := by
  have hcat : (num a * 2 ^ 128 + num b) >>> (128 - 8 * s.toNat) =
      num a <<< (8 * s.toNat) + num b >>> (128 - 8 * s.toNat) := by
    simp only [Nat.shiftLeft_eq, Nat.shiftRight_eq_div_pow]
    rw [← two_pow_shift_mul s, ← Nat.mul_assoc, Nat.add_comm, Nat.add_mul_div_right _ _ (Nat.two_pow_pos _),
      Nat.add_comm]
  rw [hcat, ← Nat.mod_add_mod, ← num_window, Nat.mod_eq_of_lt (num_lt _)]

/-- Settles O10: the two parts are separate bytes of the window, so they share no bit and `|` adds them. -/
theorem windowAsShiftedNumbers : Obligations.WindowAsShiftedNumbers := by
  intro va vb shb a b n c
  have hleft : (a <<< n) % 2 ^ 128 = numOfBytes (va.toList.drop shb.toNat) * 2 ^ n := num_shiftLeft_mod va shb
  have hright : b >>> (128 - n) < 2 ^ n := (num_shiftRight vb shb).trans_lt (numOfBytes_take_lt vb shb)
  have hsum : num (window va vb shb) = (a <<< n) % 2 ^ 128 + b >>> (128 - n) := num_window va vb shb
  refine ⟨?_, hsum, num_window_eq_field va vb shb, ?_, hright⟩
  · rw [hsum, hleft, ← Nat.shiftLeft_eq, Nat.shiftLeft_add_eq_or_of_lt hright]
  · rw [hleft, Nat.mul_mod_left]

end Sys2Proof.Machine
end

section
/-! PROOF. Flags and status registers (40_vector_shift_double.md R62). -/

namespace Sys2Proof.Machine

/-- Settles O22: an instruction reads vector registers only and writes one of them and the pc. -/
theorem flagsNeitherReadNorWritten : Obligations.FlagsNeitherReadNorWritten := by
  intro i s cr ca ov so vscr flagged
  have hreplaced : exec i (flagged s) = mapNext flagged (exec i s) := exec_eq_mapNext rfl fun _ => rfl
  refine ⟨hreplaced.trans ?_, fun t h => ?_⟩
  · cases exec i s <;> rfl
  · obtain ⟨a, b, -, -, rfl⟩ := exec_next.1 h
    exact (unchanged_advancePc_writeVR s i.vd _).status

end Sys2Proof.Machine
end

section
/-! PROOF. No operand traps (40_vector_shift_double.md R65). -/

namespace Sys2Proof.Machine

/-- An instruction whose two sources hold values completes, whatever its destination and shift are (10_state.md R15). -/
theorem exec_next_of_written {i : Instr} {s : State} (ha : Written s i.va) (hb : Written s i.vb) :
    ∃ t, exec i s = .next t := by
  obtain ⟨a, ha⟩ := ha
  obtain ⟨b, hb⟩ := hb
  exact ⟨_, exec_of_holds ha hb⟩

/-- Settles O20: every register number is in the file, so both sources are among the registers that hold values. -/
theorem noOperandTraps : Obligations.NoOperandTraps :=
  fun _ h i => exec_next_of_written (h i.va) (h i.vb)

end Sys2Proof.Machine
end

section
/-! PROOF. The fields of a word as bits and as numbers, and the two patterns of match and mask (30_encoding.md
sections 1 and 3). -/

namespace Sys2Proof

/-! ### The fixed fields as bits -/

theorem fieldOPCD_eq_four_iff (w : Word) :
    fieldOPCD w = 4 ↔
      w[26] = false ∧ w[27] = false ∧ w[28] = true ∧ w[29] = false ∧ w[30] = false ∧ w[31] = false := by
  simp [fieldOPCD, srcField, BitVec.eq_of_getLsbD_eq_iff, Nat.forall_lt_succ_right, -Order.lt_two_iff, and_assoc]

theorem fieldXO_eq_44_iff (w : Word) :
    fieldXO w = 44 ↔ w[0] = false ∧ w[1] = false ∧ w[2] = true ∧ w[3] = true ∧ w[4] = false ∧ w[5] = true := by
  simp [fieldXO, srcField, BitVec.eq_of_getLsbD_eq_iff, Nat.forall_lt_succ_right, -Order.lt_two_iff, and_assoc]

theorem fieldBit27_eq_one_iff (w : Word) : fieldBit27 w = 1 ↔ w[4] = true := by
  simp [fieldBit27, srcField, BitVec.eq_of_getLsbD_eq_iff]

theorem fieldBit21_eq_iff (w : Word) (b : BitVec 1) : fieldBit21 w = b ↔ w[10] = b[0] := by
  simp [fieldBit21, srcField, BitVec.eq_of_getLsbD_eq_iff]

/-! ### The patterns -/

theorem vsldoi_match_iff (w : Word) : w &&& 0xFC00003F = 0x1000002C ↔ fieldOPCD w = 4 ∧ fieldXO w = 44 := by
  rw [and_comm (a := fieldOPCD w = 4), fieldOPCD_eq_four_iff, fieldXO_eq_44_iff]
  simp [BitVec.eq_of_getLsbD_eq_iff, Nat.forall_lt_succ_right, -Order.lt_two_iff, and_assoc]

theorem vsldoi128_match_iff (w : Word) : w &&& 0xFC000010 = 0x10000010 ↔ fieldOPCD w = 4 ∧ fieldBit27 w = 1 := by
  rw [and_comm (a := fieldOPCD w = 4), fieldOPCD_eq_four_iff, fieldBit27_eq_one_iff]
  simp [BitVec.eq_of_getLsbD_eq_iff, Nat.forall_lt_succ_right, -Order.lt_two_iff, and_assoc]

/-- The patterns of a `vsldoi` word with a given bit 21 (30_encoding.md R49). -/
theorem vsldoi_strict_match_iff (w : Word) (b : BitVec 1) :
    w &&& 0xFC00043F = 0x1000002C ||| b.setWidth 32 <<< 10 ↔
      w &&& 0xFC00003F = 0x1000002C ∧ fieldBit21 w = b := by
  rw [vsldoi_match_iff, and_comm (a := fieldOPCD w = 4), and_right_comm, fieldOPCD_eq_four_iff, fieldXO_eq_44_iff,
    fieldBit21_eq_iff]
  simp [BitVec.eq_of_getLsbD_eq_iff, Nat.forall_lt_succ_right, -Order.lt_two_iff, and_assoc]

/-- No word matches both patterns: `XO` = 44 has bit 27 clear (30_encoding.md R48). -/
theorem not_both_match (w : Word) : ¬(w &&& 0xFC00003F = 0x1000002C ∧ w &&& 0xFC000010 = 0x10000010) := by
  rw [vsldoi_match_iff, vsldoi128_match_iff]
  rintro ⟨⟨-, hxo⟩, -, h27⟩
  exact fieldXO_ne_of_bit27 h27 hxo

/-! ### Decoding by the patterns -/

theorem decodeWord_eq (p : Bit21) (w : Word) :
    decodeWord p w =
      if w &&& 0xFC00003F = 0x1000002C then
        if p = .refuse ∧ fieldBit21 w = 1 then .error .reservedBit21 else .ok (decodeVsldoi w)
      else if w &&& 0xFC000010 = 0x10000010 then .ok (decodeVsldoi128 w)
      else .error (.notInScope w) := by
  simp only [decodeWord, vsldoi_match_iff, vsldoi128_match_iff]

theorem decodeWord_of_vsldoi {p : Bit21} {w : Word} (h : w &&& 0xFC00003F = 0x1000002C)
    (hbit : p = .ignore ∨ fieldBit21 w = 0) : decodeWord p w = .ok (decodeVsldoi w) := by
  rw [decodeWord_eq, if_pos h, if_neg]
  rintro ⟨rfl, h1⟩
  simp [h1] at hbit

theorem decodeWord_of_vsldoi128 (p : Bit21) {w : Word} (h : w &&& 0xFC000010 = 0x10000010) :
    decodeWord p w = .ok (decodeVsldoi128 w) := by
  rw [decodeWord_eq, if_neg fun h' => not_both_match w ⟨h', h⟩, if_pos h]

/-- Only a word of the `vsldoi` pattern decodes to a `vsldoi`. -/
theorem decodeWord_ok_vsldoi {p : Bit21} {w : Word} {vd va vb : VRNum} {shb : Shb}
    (h : decodeWord p w = .ok (.vsldoi vd va vb shb)) :
    w &&& 0xFC00003F = 0x1000002C ∧ (p = .refuse → fieldBit21 w ≠ 1) ∧ .vsldoi vd va vb shb = decodeVsldoi w := by
  obtain ⟨hop, ⟨hxo, hbit, hi⟩ | ⟨-, hi⟩⟩ := decodeWord_ok h
  · exact ⟨(vsldoi_match_iff w).2 ⟨hop, hxo⟩, hbit, hi⟩
  · cases hi

/-- Only a word of the `vsldoi128` pattern decodes to a `vsldoi128`. -/
theorem decodeWord_ok_vsldoi128 {p : Bit21} {w : Word} {vd va vb : VRNum} {shb : Shb}
    (h : decodeWord p w = .ok (.vsldoi128 vd va vb shb)) :
    w &&& 0xFC000010 = 0x10000010 ∧ .vsldoi128 vd va vb shb = decodeVsldoi128 w := by
  obtain ⟨hop, ⟨-, -, hi⟩ | ⟨h27, hi⟩⟩ := decodeWord_ok h
  · cases hi
  · exact ⟨(vsldoi128_match_iff w).2 ⟨hop, h27⟩, hi⟩

end Sys2Proof
end

section
/-! PROOF. Encoding and decoding are inverse (30_encoding.md section 2, R47). -/

namespace Sys2Proof

open Laws.EncodedOpcode (high_bits_of_lt)

/-! ### Decoding an encoded word -/

theorem decodeVsldoi_encode {vd va vb : VRNum} {shb : Shb} (h : WellFormed (.vsldoi vd va vb shb)) :
    decodeVsldoi (encode (.vsldoi vd va vb shb)) = .vsldoi vd va vb shb := by
  simp only [WellFormed, Instr.wf, decide_eq_true_eq] at h
  obtain ⟨hd, ha, hb⟩ := h
  simp only [decodeVsldoi, Instr.vsldoi.injEq]
  refine ⟨?_, ?_, ?_, ?_⟩ <;> apply BitVec.eq_of_getElem_eq <;> intro k hk <;> interval_cases k <;>
    simp [encode, reg5_bits, fieldVRT, fieldVRA, fieldVRB, fieldSH, srcField, high_bits_of_lt hd,
      high_bits_of_lt ha, high_bits_of_lt hb]

theorem decodeVsldoi128_encode (vd va vb : VRNum) (shb : Shb) :
    decodeVsldoi128 (encode (.vsldoi128 vd va vb shb)) = .vsldoi128 vd va vb shb := by
  simp only [decodeVsldoi128, Instr.vsldoi128.injEq]
  refine ⟨?_, ?_, ?_, ?_⟩ <;> apply BitVec.eq_of_getElem_eq <;> intro k hk <;> interval_cases k <;>
    simp [encode, reg7_bits, regA128_bits, fieldVD128h, fieldVB128h, fieldVRT, fieldVRB, fieldSH, srcField]

/-- The word of a well-formed instruction decodes to it, whatever VSLDOI_BIT21 is: `encode` clears bit 21 of
`vsldoi`. -/
theorem decodeWord_encode {i : Instr} (h : WellFormed i) (p : Bit21) : decodeWord p (encode i) = .ok i := by
  cases i with
  | vsldoi vd va vb shb =>
    obtain ⟨hop, hxo, hbit⟩ := Laws.EncodedOpcode.vsldoi vd va vb shb h
    rw [decodeWord_of_vsldoi ((vsldoi_match_iff _).2 ⟨hop, hxo⟩) (.inr hbit), decodeVsldoi_encode h]
  | vsldoi128 vd va vb shb =>
    obtain ⟨hop, h27⟩ := Laws.EncodedOpcode.vsldoi128 vd va vb shb h
    rw [decodeWord_of_vsldoi128 p ((vsldoi128_match_iff _).2 ⟨hop, h27⟩), decodeVsldoi128_encode]

/-- Settles O1: the bytes are those of one word, and that word decodes to the instruction. -/
theorem decodeInvertsEncode : Obligations.DecodeInvertsEncode := by
  intro i p rest h
  rw [encodeBytes, decode_bytesOfWord, decodeWord_encode h]

/-! ### Encoding a decoded word -/

theorem encode_decodeVsldoi {w : Word} (h : w &&& 0xFC00003F = 0x1000002C) (hbit : fieldBit21 w = 0) :
    encode (decodeVsldoi w) = w := by
  rw [vsldoi_match_iff, fieldOPCD_eq_four_iff, fieldXO_eq_44_iff] at h
  rw [fieldBit21_eq_iff] at hbit
  apply BitVec.eq_of_getElem_eq
  intro k hk
  interval_cases k <;>
    simp [encode, decodeVsldoi, reg5_bits, fieldVRT, fieldVRA, fieldVRB, fieldSH, srcField, h, hbit]

theorem encode_decodeVsldoi128 {w : Word} (h : w &&& 0xFC000010 = 0x10000010) :
    encode (decodeVsldoi128 w) = w := by
  rw [vsldoi128_match_iff, fieldOPCD_eq_four_iff, fieldBit27_eq_one_iff] at h
  apply BitVec.eq_of_getElem_eq
  intro k hk
  interval_cases k <;>
    simp [encode, decodeVsldoi128, reg7_bits, regA128_bits, fieldVD128h, fieldVB128h, fieldVRT, fieldVRB, fieldSH,
      srcField, h]

/-! ### The encoders as numbers -/

theorem and_31_eq_mod (n : Nat) : n &&& 31 = n % 32 := Nat.and_two_pow_sub_one_eq_mod n 5

theorem and_3_eq_mod (n : Nat) : n &&& 3 = n % 4 := Nat.and_two_pow_sub_one_eq_mod n 2

/-- No shift of `enc_vsldoi` leaves the word. -/
theorem encode_vsldoi_toNat (vd va vb : VRNum) (shb : Shb) :
    (encode (.vsldoi vd va vb shb)).toNat =
      0x1000002C ||| (vd.toNat <<< 21) ||| (va.toNat <<< 16) ||| (vb.toNat <<< 11) ||| (shb.toNat <<< 6) := by
  have := vd.isLt; have := va.isLt; have := vb.isLt; have := shb.isLt
  simp (disch := omega) [encode, Nat.mod_eq_of_lt]

/-- No shift of `enc_vsldoi128` leaves the word. -/
theorem encode_vsldoi128_toNat (vd va vb : VRNum) (shb : Shb) :
    (encode (.vsldoi128 vd va vb shb)).toNat =
      0x10000010 ||| ((vd.toNat &&& 31) <<< 21) ||| ((va.toNat &&& 31) <<< 16) ||| ((vb.toNat &&& 31) <<< 11) |||
        (((va.toNat >>> 6) &&& 1) <<< 10) ||| (shb.toNat <<< 6) ||| (((va.toNat >>> 5) &&& 1) <<< 5) |||
        (((vd.toNat >>> 5) &&& 3) <<< 2) ||| ((vb.toNat >>> 5) &&& 3) := by
  have := vd.isLt; have := va.isLt; have := vb.isLt; have := shb.isLt
  simp (disch := omega) [encode, and_31_eq_mod, and_3_eq_mod, Nat.mod_eq_of_lt]

/-- Bit 21 of a word as R47 tests it. -/
theorem shiftRight_and_one_eq_zero_iff (w : Word) : (w >>> 10) &&& 1 = 0 ↔ fieldBit21 w = 0 := by
  rw [fieldBit21_eq_iff]
  simp [BitVec.eq_of_getLsbD_eq_iff, Nat.forall_lt_succ_right, -Order.lt_two_iff]

/-- Settles O2: the formulas by reading the words as numbers, the inverses bit by bit. -/
theorem encodingFunctions : Obligations.EncodingFunctions := by
  refine ⟨fun vd va vb shb _ => encode_vsldoi_toNat vd va vb shb, encode_vsldoi128_toNat,
    fun i p h => decodeWord_encode h p, fun p w h => ?_, fun p w h hbit => ?_⟩
  · exact ⟨_, _, _, _, decodeWord_of_vsldoi128 p h, encode_decodeVsldoi128 h⟩
  · have hbit := (shiftRight_and_one_eq_zero_iff w).1 hbit
    exact ⟨_, _, _, _, decodeWord_of_vsldoi h (.inr hbit), encode_decodeVsldoi h hbit⟩

end Sys2Proof
end

section
/-! PROOF. What every step keeps: the run's invariant, the written registers, the text and the parameters
(10_state.md R16, R18, R22; 20_memory.md R27, R35). -/

namespace Sys2Proof.Machine

/-! ### The invariant of a run -/

/-- Settles O38: only the pc and one register change, and an aligned pc below the aligned end of the text has the
whole word before the end. -/
theorem stepKeepsInvariant : Obligations.StepKeepsInvariant := by
  intro s t hinv h
  obtain ⟨hstand, -, -, hend, -, -⟩ := step_next h
  have hpc := step_pc_toNat h
  obtain ⟨vd, v, rfl⟩ := step_next_state h
  have hbase := hinv.alignedBase
  have haligned := hinv.alignedPc
  have hfrom := hinv.pcFromBase
  exact
    ⟨{ alignedBase := hbase
       alignedPc := by omega
       textFits := hinv.textFits
       pcFromBase := by rw [base_advancePc, base_writeVR]; omega
       pcToEnd := by rw [textEnd_advancePc, textEnd_writeVR, textEnd]; rw [textEnd] at hend; omega
       textLaid := hinv.textLaid
       textWf := hinv.textWf
       dataWf := hinv.dataWf },
     ⟨hstand.vec, hstand.noFault, hstand.noInterrupts⟩⟩

/-! ### Written registers -/

theorem written_advancePc_writeVR_of_written {s : State} {n : VRNum} (h : Written s n) (vd : VRNum) (v : Vec) :
    Written (advancePc (writeVR s vd v)) n := by
  by_cases hn : n = vd
  · subst hn; exact written_advancePc_writeVR ..
  · rwa [Written, (unchanged_advancePc_writeVR s vd v).regs n hn]

theorem step_keeps_written {s t : State} (h : step s = .next t) {n : VRNum} (hn : Written s n) : Written t n := by
  obtain ⟨vd, v, rfl⟩ := step_next_state h
  exact written_advancePc_writeVR_of_written hn vd v

/-- Settles O40: a step writes a value to one register and keeps the others. -/
theorem writtenStaysWritten : Obligations.WrittenStaysWritten := by
  refine ⟨fun s t h n hn => step_keeps_written h hn, fun s t h hall n => step_keeps_written h (hall n),
    fun s t h => ?_⟩
  obtain ⟨vd, v, rfl⟩ := step_next_state h
  exact ⟨vd, written_advancePc_writeVR .., (unchanged_advancePc_writeVR s vd v).regs⟩

/-! ### Runs -/

/-- A run of `k + 1` steps is one step and a run of `k` steps. -/
theorem run_succ_next {k : Nat} {s t : State} :
    Host.Core.run core (k + 1) s = .next t ↔ ∃ u, step s = .next u ∧ Host.Core.run core k u = .next t := by
  simp only [Host.Core.run, show core.step s = step s from rfl]
  cases step s <;> simp

/-- What every step keeps, a run keeps. -/
theorem run_keeps {P : State → Prop} (hstep : ∀ s t, P s → step s = .next t → P t) {k : Nat} {s t : State}
    (hs : P s) (h : Host.Core.run core k s = .next t) : P t := by
  induction k generalizing s with
  | zero => cases h; exact hs
  | succ k ih =>
    obtain ⟨u, hu, hrun⟩ := run_succ_next.1 h
    exact ih (hstep s u hs hu) hrun

/-- The state outside the vector registers, the pc and the record is that of `s`. -/
def SameText (s t : State) : Prop :=
  t.text = s.text ∧ t.textLen = s.textLen ∧ t.params = s.params ∧ t.other = s.other

theorem step_keeps_sameText (s t u : State) (h : SameText s t) (hstep : step t = .next u) : SameText s u := by
  obtain ⟨vd, v, rfl⟩ := step_next_state hstep
  exact h

theorem run_sameText {k : Nat} {s t : State} (h : Host.Core.run core k s = .next t) : SameText s t :=
  run_keeps (step_keeps_sameText s) ⟨rfl, rfl, rfl, rfl⟩ h

/-- Settles O41: by induction on the run. -/
theorem programTextFixed : Obligations.ProgramTextFixed := by
  intro k s t h
  obtain ⟨htext, hlen, hparams, hother⟩ := run_sameText h
  exact ⟨htext, hlen, hparams, hother, fun a n => by rw [htext]⟩

/-- A run that answers a state took `k` steps of one word each. -/
theorem run_pc {k : Nat} {s t : State} (h : Host.Core.run core k s = .next t) :
    t.pc.toNat = s.pc.toNat + 4 * k := by
  induction k generalizing s with
  | zero => cases h; rfl
  | succ k ih =>
    obtain ⟨u, hu, hrun⟩ := run_succ_next.1 h
    have hstep := step_pc_toNat hu
    have hrest := ih hrun
    omega

/-- A run started at PROGRAM_BASE is at its `k`-th word after `k` steps, and no further than just past the text. -/
theorem run_from_base {k : Nat} {s t : State} (hinv : RunInv s) (hstand : Standing s)
    (hpc : s.pc = s.params.programBase) (h : Host.Core.run core k s = .next t) :
    t.pc.toNat = base t + 4 * k ∧ t.record = none ∧ textEnd t = base t + 4 * s.textLen ∧ k ≤ s.textLen := by
  obtain ⟨-, hlen, hparams, -⟩ := run_sameText h
  have hkeep : RunInv t ∧ Standing t :=
    run_keeps (fun _ _ hs => stepKeepsInvariant _ _ hs.1) ⟨hinv, hstand⟩ h
  obtain ⟨htinv, htstand⟩ := hkeep
  have hk : t.pc.toNat = base t + 4 * k := by rw [run_pc h, hpc, base, hparams]
  have hend : textEnd t = base t + 4 * s.textLen := by rw [textEnd, hlen]
  have hle := htinv.pcToEnd
  exact ⟨hk, htstand.noFault, hend, by omega⟩

/-- Settles O43: the pc counts the steps, and the invariant keeps it from passing the end of the text. -/
theorem runTakesExactlyLSteps : Obligations.RunTakesExactlyLSteps := by
  refine ⟨fun s => runOver_iff, fun s hinv hstand hpc => ⟨fun t h => ?_, fun k t hk h => ?_, fun k t hk h => ?_⟩⟩
  · obtain ⟨htpc, hrecord, hend, -⟩ := run_from_base hinv hstand hpc h
    exact runOver_iff.2 ⟨htpc.trans hend.symm, hrecord⟩
  · obtain ⟨htpc, -, hend, -⟩ := run_from_base hinv hstand hpc h
    refine Bool.eq_false_iff.2 fun hover => ?_
    obtain ⟨hatEnd, -⟩ := runOver_iff.1 hover
    omega
  · obtain ⟨-, -, -, hle⟩ := run_from_base hinv hstand hpc h
    omega

end Sys2Proof.Machine
end

section
/-! PROOF. The operands of a word as numbers (30_encoding.md section 1) and the assembler (section 5). -/

namespace Sys2Proof

/-! ### Fields as numbers -/

/-- A field in shift-and-mask form. -/
theorem srcField_toNat (w : Word) (a b : Nat) :
    (srcField w a b).toNat = w.toNat >>> (31 - b) &&& (2 ^ (b + 1 - a) - 1) := by
  rw [Nat.and_two_pow_sub_one_eq_mod]
  exact BitVec.extractLsb'_toNat ..

/-- The number one high bit, one middle bit and five low bits name (30_encoding.md R44). -/
theorem regA128_toNat (w : Word) :
    (regA128 w).toNat = (fieldBit21 w).toNat * 64 + (fieldVA128h w).toNat * 32 + (fieldVRA w).toNat := by
  unfold regA128
  generalize fieldBit21 w = x, fieldVA128h w = y, fieldVRA w = z
  revert x y z
  decide

theorem reg5_eq_ofNat (f : BitVec 5) : reg5 f = .ofNat 7 f.toNat := by rw [BitVec.ofNat_toNat, reg5]

theorem reg7_eq_ofNat (h : BitVec 2) (l : BitVec 5) : reg7 h l = .ofNat 7 (h.toNat <<< 5 ||| l.toNat) := by
  revert h l
  decide

theorem regA128_eq_ofNat (w : Word) :
    regA128 w = .ofNat 7 ((fieldBit21 w).toNat <<< 6 ||| (fieldVA128h w).toNat <<< 5 ||| (fieldVRA w).toNat) := by
  unfold regA128
  generalize fieldBit21 w = x, fieldVA128h w = y, fieldVRA w = z
  revert x y z
  decide

theorem fieldSH_eq_ofNat (w : Word) : fieldSH w = .ofNat 4 (fieldSH w).toNat := by
  rw [BitVec.ofNat_toNat, BitVec.setWidth_eq]

/-- The operands of `vsldoi` in shift-and-mask form (30_encoding.md R40). -/
theorem decodeVsldoi_eq (w : Word) :
    decodeVsldoi w =
      .vsldoi (.ofNat 7 ((w.toNat >>> 21) &&& 0x1F)) (.ofNat 7 ((w.toNat >>> 16) &&& 0x1F))
        (.ofNat 7 ((w.toNat >>> 11) &&& 0x1F)) (.ofNat 4 ((w.toNat >>> 6) &&& 0xF)) := by
  rw [decodeVsldoi, fieldSH_eq_ofNat]
  simp [reg5_eq_ofNat, fieldVRT, fieldVRA, fieldVRB, fieldSH, srcField_toNat]

/-- The operands of `vsldoi128` in shift-and-mask form (30_encoding.md R43 to R46). -/
theorem decodeVsldoi128_eq (w : Word) :
    decodeVsldoi128 w =
      .vsldoi128 (.ofNat 7 ((((w.toNat >>> 2) &&& 3) <<< 5) ||| ((w.toNat >>> 21) &&& 0x1F)))
        (.ofNat 7 ((((w.toNat >>> 10) &&& 1) <<< 6) ||| (((w.toNat >>> 5) &&& 1) <<< 5) |||
          ((w.toNat >>> 16) &&& 0x1F)))
        (.ofNat 7 (((w.toNat &&& 3) <<< 5) ||| ((w.toNat >>> 11) &&& 0x1F)))
        (.ofNat 4 ((w.toNat >>> 6) &&& 0xF)) := by
  rw [decodeVsldoi128, fieldSH_eq_ofNat]
  simp [reg7_eq_ofNat, regA128_eq_ofNat, fieldVRT, fieldVRA, fieldVRB, fieldSH, fieldVA128h, fieldVB128h,
    fieldVD128h, fieldBit21, srcField_toNat]

/-! ### Decoding in shift-and-mask form -/

/-- A mask test on a word's number is the test on the word. -/
theorem toNat_and_eq_iff (w m v : Word) : w.toNat &&& m.toNat = v.toNat ↔ w &&& m = v := by
  rw [← BitVec.toNat_and, BitVec.toNat_inj]

theorem toNat_bit21_iff (w : Word) : (w.toNat >>> 10) &&& 1 = 1 ↔ fieldBit21 w = 1 := by
  rw [← BitVec.toNat_inj]
  simp [fieldBit21, srcField_toNat]

/-- Settles O3: the tests and the operands one by one. -/
theorem decodingByMatchAndMask : Obligations.DecodingByMatchAndMask := by
  refine ⟨fun p w => ?_, not_both_match⟩
  have hvsldoi : w.toNat &&& 0xFC00003F = 0x1000002C ↔ w &&& 0xFC00003F = 0x1000002C :=
    toNat_and_eq_iff w 0xFC00003F 0x1000002C
  have hvsldoi128 : w.toNat &&& 0xFC000010 = 0x10000010 ↔ w &&& 0xFC000010 = 0x10000010 :=
    toNat_and_eq_iff w 0xFC000010 0x10000010
  simp only [hvsldoi, hvsldoi128, toNat_bit21_iff]
  rw [decodeWord_eq, decodeVsldoi_eq, decodeVsldoi128_eq]

/-- The operands of a `vsldoi128` word by their weights (30_encoding.md R43 to R46). -/
theorem decodeVsldoi128_fields (w : Word) :
    ∃ vd va vb : VRNum, decodeVsldoi128 w = .vsldoi128 vd va vb (srcField w 22 25) ∧
      vd.toNat = (srcField w 28 29).toNat * 32 + (srcField w 6 10).toNat ∧
      va.toNat = (srcField w 21 21).toNat * 64 + (srcField w 26 26).toNat * 32 + (srcField w 11 15).toNat ∧
      vb.toNat = (srcField w 30 31).toNat * 32 + (srcField w 16 20).toNat :=
  ⟨_, _, _, rfl, reg7_toNat .., regA128_toNat w, reg7_toNat ..⟩

/-- The operands of a `vsldoi` word (30_encoding.md R40). -/
theorem decodeVsldoi_fields (w : Word) :
    ∃ vd va vb : VRNum, decodeVsldoi w = .vsldoi vd va vb (srcField w 22 25) ∧
      vd.toNat = (srcField w 6 10).toNat ∧ va.toNat = (srcField w 11 15).toNat ∧
      vb.toNat = (srcField w 16 20).toNat :=
  ⟨_, _, _, rfl, reg5_toNat _, reg5_toNat _, reg5_toNat _⟩

/-- Settles O4: only a word of the pattern decodes to `vsldoi128`, and its operands are the fields. -/
theorem vsldoi128OperandFields : Obligations.Vsldoi128OperandFields := by
  intro p w vd va vb shb h
  obtain ⟨-, hi⟩ := decodeWord_ok_vsldoi128 h
  obtain ⟨vd', va', vb', hw, hd, ha, hb⟩ := decodeVsldoi128_fields w
  rw [hw] at hi
  cases hi
  exact ⟨hd, ha, hb, rfl⟩

/-- A decoded `vsldoi` names registers 0 to 31 only (10_state.md R14). -/
theorem decodeWord_ok_vsldoi_le {p : Bit21} {w : Word} {vd va vb : VRNum} {shb : Shb}
    (h : decodeWord p w = .ok (.vsldoi vd va vb shb)) : vd.toNat ≤ 31 ∧ va.toNat ≤ 31 ∧ vb.toNat ≤ 31 := by
  obtain ⟨-, -, hi⟩ := decodeWord_ok_vsldoi h
  obtain ⟨vd', va', vb', hw, hd, ha, hb⟩ := decodeVsldoi_fields w
  rw [hw] at hi
  cases hi
  have := (srcField w 6 10).isLt; have := (srcField w 11 15).isLt; have := (srcField w 16 20).isLt
  omega

/-- Decoding answers well-formed instructions only. -/
theorem wellFormed_of_decodeWord {p : Bit21} {w : Word} {i : Instr} (h : decodeWord p w = .ok i) : WellFormed i := by
  cases i with
  | vsldoi vd va vb shb =>
    obtain ⟨hd, ha, hb⟩ := decodeWord_ok_vsldoi_le h
    simp only [WellFormed, Instr.wf, decide_eq_true_eq]
    omega
  | vsldoi128 vd va vb shb => rfl

/-! ### Bit 21 of a `vsldoi` word -/

/-- The operands of `vsldoi` do not read bit 21 (30_encoding.md R40, R49). -/
theorem decodeVsldoi_xor_bit21 (w : Word) : decodeVsldoi (w ^^^ 0x400) = decodeVsldoi w := by
  simp [decodeVsldoi, fieldVRT, fieldVRA, fieldVRB, fieldSH, srcField, BitVec.extractLsb'_xor]

/-- Nor does the pattern of `vsldoi`. -/
theorem vsldoi_match_xor_bit21_iff (w : Word) :
    (w ^^^ 0x400) &&& 0xFC00003F = 0x1000002C ↔ w &&& 0xFC00003F = 0x1000002C := by
  rw [vsldoi_match_iff, vsldoi_match_iff]
  simp [fieldOPCD, fieldXO, srcField, BitVec.extractLsb'_xor]

/-! ### The assembler -/

/-- A line in range spells the well-formed instruction of its mnemonic and operands. -/
theorem instr_of_wf {l : AsmLine} (h : l.wf = true) :
    ∃ i, l.instr = some i ∧ WellFormed i ∧
      (l.mnemonic = .vsldoi ↔ ∃ vd va vb shb, i = .vsldoi vd va vb shb) ∧
      i.vd.toNat = l.vd ∧ i.va.toNat = l.va ∧ i.vb.toNat = l.vb ∧ i.shb.toNat = l.shb := by
  obtain ⟨m, vd, va, vb, shb⟩ := l
  obtain ⟨hd, ha, hb, hs⟩ := of_decide_eq_true h
  cases m with
  | vsldoi =>
    simp only [Mnemonic.registers] at hd ha hb
    refine ⟨_, if_pos h, ?_⟩
    simp (disch := omega) [WellFormed, Instr.wf, Instr.vd, Instr.va, Instr.vb, Instr.shb, Nat.mod_eq_of_lt, hd, ha, hb]
  | vsldoi128 =>
    simp only [Mnemonic.registers] at hd ha hb
    refine ⟨_, if_pos h, ?_⟩
    simp (disch := omega) [WellFormed, Instr.wf, Instr.vd, Instr.va, Instr.vb, Instr.shb, Nat.mod_eq_of_lt]

theorem instr_eq_none {l : AsmLine} (h : l.wf ≠ true) : l.instr = none := if_neg h

/-- Settles O7: the range check is that of the table of mnemonics, and an assembled instruction decodes. -/
theorem assemblerRanges : Obligations.AssemblerRanges := by
  intro l bound
  have hrange : (l.vd ≤ bound ∧ l.va ≤ bound ∧ l.vb ≤ bound ∧ l.shb ≤ 15) ↔ l.wf = true := by
    simp only [AsmLine.wf, decide_eq_true_eq]
    cases hm : l.mnemonic <;> simp only [bound, hm, Mnemonic.registers] <;> omega
  split
  · next h =>
    obtain ⟨i, hi, hwf, hform⟩ := instr_of_wf (hrange.1 h)
    exact ⟨encode i, i, by rw [assemble, hi], decodeWord_encode hwf, hform⟩
  · next h => rw [assemble, instr_eq_none (mt hrange.2 h)]

/-! ### Sample words -/

/-- Settles O8: seven words, decoded. -/
theorem sampleWordsDecode : Obligations.SampleWordsDecode := by
  unfold Obligations.SampleWordsDecode
  decide

end Sys2Proof
end

section
/-! PROOF. The laws of the window (40_vector_shift_double.md sections 3, 4 and 7). -/

namespace Sys2Proof.Machine

/-! ### Rotation (laws 1 and 2) -/

theorem window_zero_shift (a b : Vec) : window a b 0 = a := by
  apply Vector.toList_inj.1
  simp [window_toList]

/-- A byte of a value concatenated with itself. -/
theorem window_self_getElem (x : Vec) (s : Shb) {j : Nat} (hj : j < 16) :
    (window x x s)[j] = x[(s.toNat + j) % 16]'(Nat.mod_lt _ (by decide)) := by
  rw [window_getElem]
  by_cases h : s.toNat + j < 16
  · rw [catByte_low x x h]
    simp only [Nat.mod_eq_of_lt h]
  · have hmod : (s.toNat + j) % 16 = s.toNat + j - 16 := by omega
    rw [catByte_high x x (by omega) (by omega)]
    simp only [hmod]

/-- Rotations compose, modulo 16. -/
theorem window_window_self (x : Vec) (s t : Shb) :
    window (window x x s) (window x x s) t = window x x (s + t) := by
  apply Vector.ext
  intro j hj
  have hindex : (s.toNat + (t.toNat + j) % 16) % 16 = ((s + t).toNat + j) % 16 := by
    rw [BitVec.toNat_add]
    omega
  simp only [window_self_getElem, hindex]

/-- Settles O11: a rotation by 16 is a rotation by 0. -/
theorem windowRotates : Obligations.WindowRotates := by
  refine ⟨window_zero_shift, fun x s j => window_self_getElem x s j.isLt, window_window_self, fun x s => ?_⟩
  have hround : s + -s = 0 := BitVec.add_right_neg s
  rw [window_window_self, hround, window_zero_shift]

/-! ### Zero fill (laws 3 and 4) -/

theorem num_zero : num Vec.zero = 0 := by decide

/-- The part of a window that `A` gives. -/
theorem num_window_zero_right (a : Vec) (s : Shb) :
    num (window a Vec.zero s) = (num a <<< (8 * s.toNat)) % 2 ^ 128 := by
  rw [num_window, num_zero, Nat.zero_shiftRight, Nat.add_zero]

/-- The part of a window that `B` gives. -/
theorem num_window_zero_left (b : Vec) (s : Shb) :
    num (window Vec.zero b s) = num b >>> (128 - 8 * s.toNat) := by
  rw [num_window, num_zero, Nat.zero_shiftLeft, Nat.zero_mod, Nat.zero_add]

/-- The bits of `A`'s part lie above those of `B`'s. -/
theorem num_window_parts_disjoint (a b : Vec) (s : Shb) :
    num (window a Vec.zero s) &&& num (window Vec.zero b s) = 0 := by
  rw [num_window_zero_right, num_window_zero_left, num_shiftLeft_mod, num_shiftRight]
  apply Nat.eq_of_testBit_eq
  intro k
  rw [Nat.testBit_and, Nat.testBit_mul_two_pow]
  by_cases hk : 8 * s.toNat ≤ k
  · have hb : (numOfBytes (b.toList.take s.toNat)).testBit k = false :=
      Nat.testBit_lt_two_pow ((numOfBytes_take_lt b s).trans_le (Nat.pow_le_pow_right (by decide) hk))
    simp [hb]
  · simp [hk]

theorem two_pow_8_mul (k : Nat) : 2 ^ (8 * k) = 256 ^ k := by norm_num [pow_mul]

/-- Settles O12: the sum form of the window with one of its terms zero. -/
theorem windowFillsWithZero : Obligations.WindowFillsWithZero := by
  intro a b s
  have hrest : 128 - 8 * s.toNat = 8 * (16 - s.toNat) := by omega
  refine ⟨?_, ?_, ?_, num_window_parts_disjoint a b s⟩
  · rw [num_window_zero_right, Nat.shiftLeft_eq, two_pow_8_mul]
  · rw [num_window_zero_left, Nat.shiftRight_eq_div_pow, hrest, two_pow_8_mul]
  · rw [num_window, num_window_zero_right, num_window_zero_left]

/-! ### Where the source bytes go (law 5) -/

/-- A value whose byte `i` is the number `k + i`. -/
def countingVec (k : Nat) : Vec := Vector.ofFn fun i : Fin 16 => BitVec.ofNat 8 (k + i.val)

@[simp] theorem countingVec_getElem (k i : Nat) (h : i < 16) : (countingVec k)[i] = BitVec.ofNat 8 (k + i) := by
  simp [countingVec]

/-- The window of two values that count the bytes of their concatenation counts them from the shift. -/
theorem window_counting (s : Shb) (j : Fin 16) :
    ((window (countingVec 0) (countingVec 16) s)[j]).toNat = s.toNat + j.val := by
  have hs : s.toNat < 16 := s.isLt
  have hj : j.val < 16 := j.isLt
  rw [Fin.getElem_fin, window_getElem]
  by_cases h : s.toNat + j.val < 16
  · rw [catByte_low _ _ h, countingVec_getElem, BitVec.toNat_ofNat]
    omega
  · rw [catByte_high _ _ (by omega) (by omega), countingVec_getElem, BitVec.toNat_ofNat]
    omega

/-- The place of the window that is `A.byte[i]` for all `A` and `B`. -/
theorem window_getElem_eq_left_iff (s : Shb) (i j : Fin 16) :
    (∀ a b : Vec, (window a b s)[j] = a[i]) ↔ s.toNat + j.val = i.val := by
  constructor
  · intro h
    have hcount := congrArg BitVec.toNat (h (countingVec 0) (countingVec 16))
    rw [window_counting, Fin.getElem_fin, countingVec_getElem, BitVec.toNat_ofNat] at hcount
    omega
  · intro h a b
    rw [Fin.getElem_fin, window_getElem, catByte_low a b (by omega)]
    simp only [h, Fin.getElem_fin]

/-- The place of the window that is `B.byte[i]` for all `A` and `B`. -/
theorem window_getElem_eq_right_iff (s : Shb) (i j : Fin 16) :
    (∀ a b : Vec, (window a b s)[j] = b[i]) ↔ s.toNat + j.val = i.val + 16 := by
  constructor
  · intro h
    have hcount := congrArg BitVec.toNat (h (countingVec 0) (countingVec 16))
    rw [window_counting, Fin.getElem_fin, countingVec_getElem, BitVec.toNat_ofNat] at hcount
    omega
  · intro h a b
    rw [Fin.getElem_fin, window_getElem, catByte_high a b (by omega) (by omega)]
    simp only [h, Nat.add_sub_cancel, Fin.getElem_fin]

/-- One place of the window is byte `n` of the concatenation, if the window reaches it. -/
theorem existsUnique_place {s : Shb} {n : Nat} (hlo : s.toNat ≤ n) (hhi : n < s.toNat + 16) :
    ∃! j : Fin 16, s.toNat + j.val = n := by
  refine ⟨⟨n - s.toNat, by omega⟩, Nat.add_sub_of_le hlo, fun j hj => Fin.ext ?_⟩
  show j.val = n - s.toNat
  omega

/-- Settles O13: each source byte has the one place its number in the concatenation gives. -/
theorem everySourceByteOnceOrNever : Obligations.EverySourceByteOnceOrNever := by
  intro s i
  have hs : s.toNat < 16 := s.isLt
  simp only [window_getElem_eq_left_iff, window_getElem_eq_right_iff]
  split
  · exact ⟨existsUnique_place (by omega) (by omega), fun ⟨j, hj⟩ => by omega⟩
  · exact ⟨existsUnique_place (by omega) (by omega), fun ⟨j, hj⟩ => by omega⟩

/-! ### Corner cases (R59) -/

/-- The last byte of `B` is past the end of every window. -/
theorem window_set_last (a b : Vec) (s : Shb) (x : Byte) : window a (b.set 15 x) s = window a b s := by
  have hs : s.toNat ≤ 15 := Nat.le_of_lt_succ s.isLt
  apply Vector.toList_inj.1
  rw [window_toList, window_toList, Vector.toList_set, List.take_set_of_le hs]

/-- Settles O14: the window as the end of `A` and the start of `B`. -/
theorem cornerCases : Obligations.CornerCases :=
  ⟨fun a b => window_toList a b 15, fun a b => window_toList a b 8, window_set_last⟩

end Sys2Proof.Machine
end

section
/-! PROOF. What the two instructions do (40_vector_shift_double.md R57, R58; 10_state.md R14 to R16). -/

namespace Sys2Proof.Machine

/-! ### One instruction, in full -/

/-- An instruction with readable sources writes the window of their old values and advances pc, and no more. -/
theorem exec_completes {i : Instr} {s : State} {a b : Vec} (ha : readVR s i.va = .holds a)
    (hb : readVR s i.vb = .holds b) :
    ∃ t, exec i s = .next t ∧ readVR t i.vd = .holds (window a b i.shb) ∧ t.pc = s.pc + 4 ∧ Unchanged s t i.vd :=
  ⟨_, exec_of_holds ha hb, by rw [readVR_advancePc, readVR_writeVR_same], rfl, unchanged_advancePc_writeVR ..⟩

/-- The faults of an instruction. -/
theorem exec_fault_iff {i : Instr} {s : State} {f : Fault} :
    exec i s = .fault f ↔
      (readVR s i.va = .unwritten ∧ f = .unwrittenVR i.va) ∨
        (Written s i.va ∧ readVR s i.vb = .unwritten ∧ f = .unwrittenVR i.vb) := by
  rw [exec_eq_shiftDouble, shiftDouble_fault]

theorem exec_of_va_unwritten {i : Instr} {s : State} (h : readVR s i.va = .unwritten) :
    exec i s = .fault (.unwrittenVR i.va) :=
  exec_fault_iff.2 (.inl ⟨h, rfl⟩)

theorem exec_of_vb_unwritten {i : Instr} {s : State} (ha : Written s i.va) (h : readVR s i.vb = .unwritten) :
    exec i s = .fault (.unwrittenVR i.vb) :=
  exec_fault_iff.2 (.inr ⟨ha, h, rfl⟩)

/-- A fault of an instruction names a source, and that register is unwritten. -/
theorem exec_fault_source {i : Instr} {s : State} {f : Fault} (h : exec i s = .fault f) :
    ∃ n, f = .unwrittenVR n ∧ (n = i.va ∨ n = i.vb) ∧ readVR s n = .unwritten := by
  obtain ⟨ha, rfl⟩ | ⟨-, hb, rfl⟩ := exec_fault_iff.1 h
  · exact ⟨_, rfl, .inl rfl, ha⟩
  · exact ⟨_, rfl, .inr rfl, hb⟩

theorem exec_ne_refused (i : Instr) (s : State) (r : Refusal) : exec i s ≠ .refused r := by
  rw [exec_eq_shiftDouble]
  exact shiftDouble_not_refused

/-- Settles O19: a next state needs both values, and both values give one. -/
theorem completesExactlyOnWrittenSources : Obligations.CompletesExactlyOnWrittenSources := by
  refine fun i s => ⟨⟨?_, ?_⟩, fun f => exec_fault_source, exec_ne_refused i s⟩
  · rintro ⟨t, h⟩
    obtain ⟨a, b, ha, hb, -⟩ := exec_next.1 h
    exact ⟨⟨a, ha⟩, ⟨b, hb⟩⟩
  · rintro ⟨ha, hb⟩
    exact exec_next_of_written ha hb

/-! ### The two encodings -/

/-- Settles O16: the shared effect, on the operands of the `vsldoi` fields. -/
theorem vsldoiExecutes : Obligations.VsldoiExecutes := by
  refine ⟨fun s vd va vb shb a b ha hb => exec_completes (i := .vsldoi vd va vb shb) ha hb,
    fun s vd va vb shb => ⟨exec_of_va_unwritten (i := .vsldoi vd va vb shb),
      exec_of_vb_unwritten (i := .vsldoi vd va vb shb)⟩, fun p w h hbit => ?_, by decide, by decide⟩
  obtain ⟨vd, va, vb, hi, hfields⟩ := decodeVsldoi_fields w
  exact ⟨vd, va, vb, by rw [decodeWord_of_vsldoi h hbit, hi], hfields⟩

/-- Settles O17: the shared effect, on the operands of the `vsldoi128` fields. -/
theorem vsldoi128Executes : Obligations.Vsldoi128Executes := by
  refine ⟨fun s vd va vb shb a b ha hb => exec_completes (i := .vsldoi128 vd va vb shb) ha hb,
    fun s vd va vb shb => ⟨exec_of_va_unwritten (i := .vsldoi128 vd va vb shb),
      exec_of_vb_unwritten (i := .vsldoi128 vd va vb shb)⟩, fun p w h => ?_, by decide, by decide⟩
  obtain ⟨vd, va, vb, hi, hfields⟩ := decodeVsldoi128_fields w
  exact ⟨vd, va, vb, by rw [decodeWord_of_vsldoi128 p h, hi], hfields⟩

/-- Settles O15: a 4-bit shift is below 16, and both bodies are the shared effect. -/
theorem clampIsDeadAndBodiesAgree : Obligations.ClampIsDeadAndBodiesAgree := by
  refine ⟨fun shb => Nat.min_eq_left shb.isLt.le, fun vd va vb shb s => ?_⟩
  rw [exec_eq_shiftDouble, exec_eq_shiftDouble]
  rfl

/-- Settles O18: the sources are read `VA` first, and a launch's map is the register file it starts with. -/
theorem unwrittenSourceFaults : Obligations.UnwrittenSourceFaults := by
  refine ⟨fun i s => exec_of_va_unwritten, fun i s a ha => exec_of_vb_unwritten ⟨a, ha⟩, fun l s n h => ?_⟩
  obtain ⟨rfl, -⟩ := launch_next h
  rfl

/-! ### One instruction after another -/

/-- Settles O24: the four cases of the two sources. -/
theorem resultDependsOnOperandsOnly : Obligations.ResultDependsOnOperandsOnly := by
  intro i s₁ s₂ hva hvb
  cases ha : readVR s₁ i.va with
  | unwritten => rw [exec_of_va_unwritten ha, exec_of_va_unwritten (hva ▸ ha)]
  | holds a =>
    cases hb : readVR s₁ i.vb with
    | unwritten => rw [exec_of_vb_unwritten ⟨a, ha⟩ hb, exec_of_vb_unwritten ⟨a, hva ▸ ha⟩ (hvb ▸ hb)]
    | holds b =>
      rw [exec_of_holds ha hb, exec_of_holds (hva ▸ ha) (hvb ▸ hb)]
      simp only [readVR_advancePc, readVR_writeVR_same]

/-- An instruction with readable sources gives the window of them. -/
theorem exec_result {i : Instr} {s : State} {a b : Vec} (ha : readVR s i.va = .holds a)
    (hb : readVR s i.vb = .holds b) : ∃ t, exec i s = .next t ∧ readVR t i.vd = .holds (window a b i.shb) := by
  obtain ⟨t, ht, hvd, -⟩ := exec_completes ha hb
  exact ⟨t, ht, hvd⟩

/-- Settles O25: the second instruction finds the first one's window in the register it names. -/
theorem backToBackDependence : Obligations.BackToBackDependence := by
  intro i j s a b ha hb
  obtain ⟨t, ht, hvd⟩ := exec_result ha hb
  exact ⟨t, ht, hvd, fun c hj hc => exec_result (hj ▸ hvd) hc, fun c hj hc => exec_result hc (hj ▸ hvd)⟩

/-- Settles O6: `encode` names every register of its form, and a shift by 0 moves the value of `VA`. -/
theorem oneSharedRegisterFile : Obligations.OneSharedRegisterFile := by
  refine ⟨fun p w vd va vb shb => decodeWord_ok_vsldoi_le, fun vd va vb hd ha hb => ?_, fun vd va vb => ?_, ?_⟩
  · have hwf : WellFormed (.vsldoi vd va vb 0) := by
      simp only [WellFormed, Instr.wf, decide_eq_true_eq]
      omega
    exact ⟨_, decodeWord_encode hwf⟩
  · exact ⟨_, decodeWord_encode (i := .vsldoi128 vd va vb 0) rfl⟩
  · rintro i j s t v - hvd hj ⟨c, hc⟩ hshb
    obtain ⟨u, hu, hmoved⟩ := exec_result (hj ▸ hvd) hc
    rw [hshb, window_zero_shift] at hmoved
    exact ⟨u, hu, hmoved⟩

end Sys2Proof.Machine
end

section
/-! PROOF. The fetch of a word (20_memory.md R26, R30). -/

namespace Sys2Proof

theorem shiftLeft_or_eq {x y k : Nat} (h : y < 2 ^ k) : x <<< k ||| y = x * 2 ^ k + y := by
  rw [← Nat.shiftLeft_add_eq_or_of_lt h, Nat.shiftLeft_eq]

/-- The number of four bytes laid side by side, each below the weight of the next. -/
theorem wordOfBytes_toNat (b0 b1 b2 b3 : Byte) :
    (wordOfBytes b0 b1 b2 b3).toNat = b0.toNat * 2 ^ 24 + b1.toNat * 2 ^ 16 + b2.toNat * 2 ^ 8 + b3.toNat := by
  have h0 : b0.toNat < 2 ^ 8 := b0.isLt
  have h1 : b1.toNat < 2 ^ 8 := b1.isLt
  have h2 : b2.toNat < 2 ^ 8 := b2.isLt
  have h3 : b3.toNat < 2 ^ 8 := b3.isLt
  have hparts : (wordOfBytes b0 b1 b2 b3).toNat =
      b0.toNat <<< 24 ||| (b1.toNat <<< 16 ||| (b2.toNat <<< 8 ||| b3.toNat)) := by
    simp (disch := omega) [wordOfBytes, Nat.mod_eq_of_lt, Nat.or_assoc]
  rw [hparts, shiftLeft_or_eq h3, shiftLeft_or_eq (k := 16) (by omega), shiftLeft_or_eq (k := 24) (by omega)]
  omega

theorem decode_bytesOfWord_ok {p : Bit21} {w : Word} {i : Instr} (h : decodeWord p w = .ok i) :
    decode p (bytesOfWord w) = .ok (i, []) := by
  have hdecode := decode_bytesOfWord p w []
  rwa [h, List.append_nil] at hdecode

theorem decode_bytesOfWord_error {p : Bit21} {w : Word} {e : DecodeError} (h : decodeWord p w = .error e) :
    decode p (bytesOfWord w) = .error e := by
  have hdecode := decode_bytesOfWord p w []
  rwa [h, List.append_nil] at hdecode

end Sys2Proof

namespace Sys2Proof.Machine

@[simp] theorem Memory.readBytes_zero_eq_some {m : Memory} {a : Nat} {bs : List Byte} :
    m.readBytes a 0 = some bs ↔ bs = [] := by
  rw [Memory.readBytes, Option.some_inj, eq_comm]

/-- The bytes a read gives, one by one. -/
@[simp] theorem Memory.readBytes_succ_eq_cons {m : Memory} {a n : Nat} {b : Byte} {bs : List Byte} :
    m.readBytes a (n + 1) = some (b :: bs) ↔ m.read a = some b ∧ m.readBytes (a + 1) n = some bs := by
  rw [Memory.readBytes]
  cases m.read a <;> cases m.readBytes (a + 1) n <;> simp

/-- Bytes that are all listed can be read. -/
theorem Memory.exists_readBytes {m : Memory} {a n : Nat} (h : ∀ b, a ≤ b → b < a + n → b ∈ m.map Prod.fst) :
    ∃ bs, m.readBytes a n = some bs := by
  induction n generalizing a with
  | zero => exact ⟨[], rfl⟩
  | succ n ih =>
    obtain ⟨b, hb⟩ := Option.isSome_iff_exists.1 ((m.isSome_read a).2 (h a (Nat.le_refl a) (by omega)))
    obtain ⟨bs, hbs⟩ := ih (a := a + 1) fun c hlo hhi => h c (by omega) (by omega)
    exact ⟨b :: bs, Memory.readBytes_succ_eq_cons.2 ⟨hb, hbs⟩⟩

/-- Settles O36: the four bytes one by one, and the word they make. -/
theorem fetchIsBigEndian : Obligations.FetchIsBigEndian := by
  refine ⟨wordOfBytes_toNat, fun w p i => decode_bytesOfWord_ok, fun s b0 b1 b2 b3 => ?_, by decide⟩
  simp only [fetchBytes, Memory.readBytes_succ_eq_cons, Memory.readBytes_zero_eq_some, and_true]

/-! ### Fetch and decode -/

theorem fetchInstr_of_ok {s : State} {w : Word} {i : Instr}
    (hw : s.text.readBytes s.pc.toNat 4 = some (bytesOfWord w)) (hi : decodeWord s.params.bit21 w = .ok i) :
    fetchInstr s = .ok i := by
  simp only [fetchInstr, fetchBytes, hw, decode_bytesOfWord_ok hi]

theorem fetchInstr_of_error {s : State} {w : Word} {e : DecodeError}
    (hw : s.text.readBytes s.pc.toNat 4 = some (bytesOfWord w)) (he : decodeWord s.params.bit21 w = .error e) :
    fetchInstr s = .error (refusalOfDecode e) := by
  simp only [fetchInstr, fetchBytes, hw, decode_bytesOfWord_error he]

theorem fetchInstr_of_unlisted {s : State} (h : s.text.readBytes s.pc.toNat 4 = none) :
    fetchInstr s = .error .fetchOutsideText := by
  simp only [fetchInstr, fetchBytes, h]

/-- Four bytes read that decode are those of a word that decodes to the same. -/
theorem word_of_decode {m : Memory} {a : Nat} {p : Bit21} {bs rest : List Byte} {i : Instr}
    (h : m.readBytes a 4 = some bs) (hi : decode p bs = .ok (i, rest)) :
    ∃ w, m.readBytes a 4 = some (bytesOfWord w) ∧ decodeWord p w = .ok i := by
  obtain ⟨w, rfl, hw⟩ := decode_ok_word hi
  have hlen := Memory.length_readBytes h
  obtain rfl : rest = [] := by simpa [bytesOfWord] using hlen
  exact ⟨w, by rwa [List.append_nil] at h, hw⟩

end Sys2Proof.Machine
end

section
/-! PROOF. One step in the spec's order (70_reset_and_hazards.md R79) and what a stop leaves (R77). -/

namespace Sys2Proof.Machine

/-! ### A step at a word of the text -/

/-- The step is about to run the word `w`: the standing premises hold and the pc is aligned and at `w`'s bytes inside
the text. -/
structure AtWord (s : State) (w : Word) : Prop where
  standing : Standing s
  alignedPc : s.pc.toNat % 4 = 0
  fromBase : base s ≤ s.pc.toNat
  beforeEnd : s.pc.toNat < textEnd s
  bytes : s.text.readBytes s.pc.toNat 4 = some (bytesOfWord w)

theorem AtWord.refusalBeforeFetch {s : State} {w : Word} (h : AtWord s w) : refusalBeforeFetch s = none :=
  refusalBeforeFetch_none.2 ⟨h.standing, h.alignedPc, h.fromBase, h.beforeEnd⟩

theorem step_of_ok {s : State} {w : Word} {i : Instr} (h : AtWord s w) (hi : decodeWord s.params.bit21 w = .ok i)
    (ho : s.pc.toNat + 4 < 2 ^ s.params.pcBits.width) : step s = exec i s :=
  step_of_fetch h.standing h.alignedPc h.fromBase h.beforeEnd (fetchInstr_of_ok h.bytes hi) ho

theorem step_of_overflow {s : State} {w : Word} {i : Instr} (h : AtWord s w)
    (hi : decodeWord s.params.bit21 w = .ok i) (ho : 2 ^ s.params.pcBits.width ≤ s.pc.toNat + 4) :
    step s = .refused .pcOverflow := by
  have hover : pcOverflows s = true := decide_eq_true ho
  simp only [step, h.refusalBeforeFetch, fetchInstr_of_ok h.bytes hi, hover, if_true]

theorem step_of_error {s : State} {w : Word} {e : DecodeError} (h : AtWord s w)
    (he : decodeWord s.params.bit21 w = .error e) : step s = .refused (refusalOfDecode e) := by
  simp only [step, h.refusalBeforeFetch, fetchInstr_of_error h.bytes he]

/-- Settles O26: the four bytes are one word, and decoding answers well-formed instructions only. -/
theorem stepRunsDecodedInstruction : Obligations.StepRunsDecodedInstruction := by
  intro s bs rest i hs h4 hb he ho hbs hi
  obtain ⟨w, hw, hwi⟩ := word_of_decode hbs hi
  exact ⟨step_of_ok ⟨hs, h4, hb, he, hw⟩ hwi ho, wellFormed_of_decodeWord hwi⟩

/-- Settles O31: such a word decodes to nothing. -/
theorem otherWordsRefused : Obligations.OtherWordsRefused := by
  intro s w hs h4 hb he hw hvsldoi hvsldoi128
  have hdecode : decodeWord s.params.bit21 w = .error (.notInScope w) := by
    rw [decodeWord_eq, if_neg hvsldoi, if_neg hvsldoi128]
  exact step_of_error ⟨hs, h4, hb, he, hw⟩ hdecode

/-- Settles O30: the strict patterns fix bit 21, which only the test under `refuse` reads. -/
theorem bit21Parameter : Obligations.Bit21Parameter := by
  have hset (w : Word) : w &&& 0xFC00043F = 0x1000042C ↔ w &&& 0xFC00003F = 0x1000002C ∧ fieldBit21 w = 1 :=
    vsldoi_strict_match_iff w 1
  have hclear (w : Word) : w &&& 0xFC00043F = 0x1000002C ↔ w &&& 0xFC00003F = 0x1000002C ∧ fieldBit21 w = 0 :=
    vsldoi_strict_match_iff w 0
  refine ⟨fun s w hs h4 hb he hw h hp => ?_, fun w h => ?_, fun w => ⟨?_, fun h => ?_⟩⟩
  · obtain ⟨hm, hbit⟩ := (hset w).1 h
    have hdecode : decodeWord s.params.bit21 w = .error .reservedBit21 := by
      rw [decodeWord_eq, if_pos hm, if_pos ⟨hp, hbit⟩]
    exact step_of_error ⟨hs, h4, hb, he, hw⟩ hdecode
  · obtain ⟨hm, -⟩ := (hset w).1 h
    have hm' := (vsldoi_match_xor_bit21_iff w).2 hm
    have hi := decodeWord_of_vsldoi hm (.inl rfl)
    exact ⟨by rw [hi, decodeWord_of_vsldoi hm' (.inl rfl), decodeVsldoi_xor_bit21], _, hi⟩
  · rintro ⟨vd, va, vb, shb, hi⟩
    obtain ⟨hm, hbit, -⟩ := decodeWord_ok_vsldoi hi
    have hne := hbit rfl
    exact (hclear w).2 ⟨hm, by bv_omega⟩
  · obtain ⟨hm, hbit⟩ := (hclear w).1 h
    exact ⟨_, _, _, _, decodeWord_of_vsldoi hm (.inr hbit)⟩

/-- Settles O42: the text is laid out at the pc, and the word there ends in the text. -/
theorem progress : Obligations.Progress := by
  intro s hinv hs hall hne hdecodes
  have hfrom := hinv.pcFromBase
  have hto := hinv.pcToEnd
  have hfits := hinv.textFits
  have hbase := hinv.alignedBase
  have hpc := hinv.alignedPc
  have hend : textEnd s = base s + 4 * s.textLen := rfl
  have hlisted : ∀ b, s.pc.toNat ≤ b → b < s.pc.toNat + 4 → b ∈ s.text.map Prod.fst := by
    intro b hlo hhi
    rw [hinv.textLaid, List.mem_range'_1]
    omega
  obtain ⟨bs, hbs⟩ := Memory.exists_readBytes hlisted
  obtain ⟨i, rest, hi⟩ := hdecodes bs hbs
  obtain ⟨w, hw, hwi⟩ := word_of_decode hbs hi
  rw [step_of_ok ⟨hs, hpc, hfrom, by omega, hw⟩ hwi (by omega)]
  exact noOperandTraps s hall i

end Sys2Proof.Machine
end

section
/-! PROOF. The order of a step and what a stop leaves (70_reset_and_hazards.md R77, R79; 10_state.md R18). -/

namespace Sys2Proof.Machine

/-! ### What a step that is not refused did -/

/-- A step that faults ran one decoded instruction under the standing premises. -/
theorem step_fault {s : State} {f : Fault} (h : step s = .fault f) : Standing s ∧ ∃ i, exec i s = .fault f := by
  unfold step at h
  split at h
  · cases h
  · next hr =>
    obtain ⟨hs, -⟩ := refusalBeforeFetch_none.1 hr
    split at h
    · cases h
    · next i _ =>
      split at h
      · cases h
      · exact ⟨hs, i, h⟩

/-- Settles O32: a fault is one of an instruction, on a source it read. -/
theorem onlyFaultIsUnwrittenRead : Obligations.OnlyFaultIsUnwrittenRead := by
  have hfault : ∀ s f, step s = .fault f → ∃ n, f = .unwrittenVR n ∧ readVR s n = .unwritten := by
    intro s f h
    obtain ⟨-, i, hi⟩ := step_fault h
    obtain ⟨n, hf, -, hn⟩ := exec_fault_source hi
    exact ⟨n, hf, hn⟩
  refine ⟨hfault, fun s hall f h => ?_⟩
  obtain ⟨n, -, hn⟩ := hfault s f h
  obtain ⟨v, hv⟩ := hall n
  cases hn.symm.trans hv

/-- Settles O29: the step checks `pc + 4` before it adds, and the launch checks that the text fits. -/
theorem pcNeverWraps : Obligations.PcNeverWraps := by
  refine ⟨fun l s h => ?_, fun s t h => ?_, fun s bs rest i hs h4 hb he hbs hi ho => ?_⟩
  · obtain ⟨rfl, hp⟩ := launch_next h
    have haligned := hp .alignedPc
    have hfits := hp .textFits
    have hin := hp .pcInText
    simp only [holdsPremise, Bool.and_eq_true, decide_eq_true_eq] at haligned hfits hin
    exact ⟨haligned, by omega⟩
  · obtain ⟨-, h4, -, -, ho, -⟩ := step_next h
    have hpc := step_pc_toNat h
    obtain ⟨vd, v, rfl⟩ := step_next_state h
    exact ⟨by omega, hpc.trans_lt ho⟩
  · obtain ⟨w, hw, hwi⟩ := word_of_decode hbs hi
    exact step_of_overflow ⟨hs, h4, hb, he, hw⟩ hwi ho

/-! ### The end of the run -/

theorem refusalBeforeFetch_eq_runOver_iff {s : State} :
    refusalBeforeFetch s = some .runOver ↔ runOver s = true := by
  refine ⟨fun h => ?_, fun h => if_pos h⟩
  unfold refusalBeforeFetch at h
  split at h
  · assumption
  · split at h
    · cases h
    · split_ifs at h <;> cases h

theorem fetchInstr_ne_runOver (s : State) : fetchInstr s ≠ .error .runOver := by
  unfold fetchInstr
  split
  · exact nofun
  · split
    · exact nofun
    · next e _ => cases e <;> exact nofun

/-- A step is refused as `runOver` where the run is over, and nowhere else. -/
theorem step_eq_runOver_iff {s : State} : step s = .refused .runOver ↔ runOver s = true := by
  rw [← refusalBeforeFetch_eq_runOver_iff]
  refine ⟨fun h => ?_, fun h => by rw [step, h]⟩
  unfold step at h
  split at h
  · next r hr => cases h; exact hr
  · split at h
    · next r hr => cases h; exact absurd hr (fetchInstr_ne_runOver s)
    · split at h
      · cases h
      · exact absurd h (exec_ne_refused _ _ _)

/-! ### The state after a step -/

theorem stepRecorded_of_next {s t : State} (h : step s = .next t) : stepRecorded s = t := by
  rw [stepRecorded, h]

theorem stepRecorded_of_fault {s : State} {f : Fault} (h : step s = .fault f) :
    stepRecorded s = recordStop s (.fault f) := by
  rw [stepRecorded, h]

theorem stepRecorded_of_runOver {s : State} (h : runOver s = true) : stepRecorded s = s := by
  rw [stepRecorded, step_eq_runOver_iff.2 h]

theorem stepRecorded_of_refused {s : State} {r : Refusal} (h : step s = .refused r) (hr : r ≠ .runOver) :
    stepRecorded s = recordStop s (.refusal r) := by
  rw [stepRecorded, h]
  cases r with
  | runOver => exact absurd rfl hr
  | _ => rfl

/-- A step answers a next state, or its stop is recorded, or the run is over. -/
theorem stepRecorded_cases (s : State) :
    (∃ t, step s = .next t) ∨ (runOver s = false ∧ ∃ r, stepRecorded s = recordStop s r) ∨
      (runOver s = true ∧ stepRecorded s = s) := by
  cases hover : runOver s with
  | true => exact .inr (.inr ⟨rfl, stepRecorded_of_runOver hover⟩)
  | false =>
    cases h : step s with
    | next t => exact .inl ⟨t, rfl⟩
    | fault f => exact .inr (.inl ⟨rfl, _, stepRecorded_of_fault h⟩)
    | refused r =>
      refine .inr (.inl ⟨rfl, _, stepRecorded_of_refused h ?_⟩)
      rintro rfl
      rw [step_eq_runOver_iff.1 h] at hover
      cases hover

theorem recordStop_of_none {s : State} (h : s.record = none) (r : Stop) :
    recordStop s r = { s with record := some r } := by
  rw [recordStop_eq, h, Option.getD_none]

theorem recordStop_of_some {s : State} {r : Stop} (h : s.record = some r) (r' : Stop) : recordStop s r' = s := by
  rw [recordStop, h]

/-- A machine with a record takes no step. -/
theorem not_step_next_of_record {s : State} {r : Stop} (h : s.record = some r) (t : State) : step s ≠ .next t := by
  intro ht
  obtain ⟨hs, -⟩ := step_next ht
  rw [hs.noFault] at h
  cases h

/-- A record is never cleared or replaced. -/
theorem stepRecorded_of_record {s : State} {r : Stop} (h : s.record = some r) : stepRecorded s = s := by
  obtain ⟨t, ht⟩ | ⟨-, r', hr'⟩ | ⟨-, hover⟩ := stepRecorded_cases s
  · exact absurd ht (not_step_next_of_record h t)
  · rw [hr', recordStop_of_some h]
  · exact hover

/-- Settles O33: a stop sets the record and nothing else, unless it is the end of the run. -/
theorem stopsAreRecordedForGood : Obligations.StopsAreRecordedForGood := by
  refine ⟨fun s hstop => ?_, fun s r h => ⟨stepRecorded_of_record h, not_step_next_of_record h⟩⟩
  obtain ⟨t, ht⟩ | ⟨hover, r, hr⟩ | ⟨hover, hs⟩ := stepRecorded_cases s
  · exact absurd ht (hstop t)
  · rw [hr, hover, recordStop_record]
    exact ⟨recordStop_eq s r, by simp⟩
  · obtain ⟨-, hnone⟩ := runOver_iff.1 hover
    rw [hs]
    exact ⟨rfl, iff_of_true hnone hover⟩

/-! ### The order of a step -/

/-- Settles O27: the refusals before the fetch, then the four bytes, their word, the range check and the sources. -/
theorem stepInOrder : Obligations.StepInOrder := by
  refine ⟨fun s hs => ?_, fun s t => stepRecorded_of_next, fun s f h => ?_, fun s r hnone h hr => ?_⟩
  · have hpre := refusalBeforeFetch_standing hs
    rw [textEnd] at hpre
    by_cases hend : s.pc.toNat = base s + 4 * s.textLen
    · rw [if_pos hend, step, hpre, if_pos hend]
    rw [if_neg hend] at hpre ⊢
    by_cases h4 : s.pc.toNat % 4 ≠ 0
    · rw [if_pos h4, step, hpre, if_pos h4]
    rw [if_neg h4] at hpre ⊢
    by_cases hout : s.pc.toNat < base s ∨ s.pc.toNat > base s + 4 * s.textLen
    · rw [if_pos hout, step, hpre, if_pos hout]
    rw [if_neg hout] at hpre ⊢
    cases hbytes : s.text.readBytes s.pc.toNat 4 with
    | none => simp only [step, hpre, fetchInstr_of_unlisted hbytes]
    | some bs =>
      obtain ⟨b0, b1, b2, b3, rfl⟩ := List.length_eq_four.1 (Memory.length_readBytes hbytes)
      obtain ⟨-, haligned, hfrom, hbefore⟩ := refusalBeforeFetch_none.1 hpre
      have hat : AtWord s (wordOfBytes b0 b1 b2 b3) :=
        ⟨hs, haligned, hfrom, hbefore, by rw [bytesOfWord_wordOfBytes, hbytes]⟩
      dsimp only
      cases hi : decodeWord s.params.bit21 (wordOfBytes b0 b1 b2 b3) with
      | error e =>
        rw [step_of_error hat hi]
        cases e <;> rfl
      | ok i =>
        dsimp only
        split
        · next ho => exact step_of_overflow hat hi ho
        · next ho =>
          rw [step_of_ok hat hi (Nat.lt_of_not_le ho)]
          cases ha : readVR s i.va with
          | unwritten => exact exec_of_va_unwritten ha
          | holds a =>
            cases hb : readVR s i.vb with
            | unwritten => exact exec_of_vb_unwritten ⟨a, ha⟩ hb
            | holds b => exact exec_of_holds ha hb
  · obtain ⟨hs, -⟩ := step_fault h
    rw [stepRecorded_of_fault h, recordStop_of_none hs.noFault]
  · rw [stepRecorded_of_refused h hr, recordStop_of_none hnone]

end Sys2Proof.Machine
end

section
/-! PROOF. The launch of a run (70_reset_and_hazards.md R77, R78) and the state after reset. -/

namespace Sys2Proof.Machine

/-! ### The premises -/

theorem launch_eq_next_iff (l : Launch) : launch l = .next l.state ↔ ∀ p, LaunchPremise l p := by
  simp only [← holdsPremise_state]
  refine ⟨fun h => (launch_next h).2, fun h => ?_⟩
  rw [launch, failedPremise_launch.2 h]

/-- A launch that is not accepted is refused under a premise that fails. -/
theorem launch_refused {l : Launch} (h : ¬∀ p, LaunchPremise l p) :
    ∃ p, launch l = .refused (.premise p) ∧ ¬LaunchPremise l p := by
  cases hfailed : failedPremise l.state launchPremises with
  | none => exact absurd (fun p => (holdsPremise_state l p).1 (failedPremise_launch.1 hfailed p)) h
  | some p =>
    have hp : holdsPremise l.state p = false := by simpa using List.find?_some hfailed
    exact ⟨p, by rw [launch, hfailed], fun hl => by simp [(holdsPremise_state l p).2 hl] at hp⟩

/-- Settles O34: the launch looks for the first premise that fails. -/
theorem launchPremisesNamed : Obligations.LaunchPremisesNamed :=
  fun l => ⟨launch_eq_next_iff l, fun ⟨p, hp⟩ => launch_refused fun hall => hp (hall p)⟩

/-! ### The text laid out -/

/-- Past its first word a laid out text is the text of the other words. -/
theorem read_layWords_cons {a b : Nat} {w : Word} {ws : List Word} (h : a + 4 ≤ b) :
    Memory.read (layWords a (w :: ws)) b = Memory.read (layWords (a + 4) ws) b := by
  simp (disch := omega) only [layWords, Memory.read, if_neg]

/-- Word `k` of a laid out text (20_memory.md R29). -/
theorem readBytes_layWords {a k : Nat} {ws : List Word} (h : k < ws.length) :
    Memory.readBytes (layWords a ws) (a + 4 * k) 4 = some (bytesOfWord ws[k]) := by
  induction ws generalizing a k with
  | nil => cases h
  | cons w ws ih =>
    cases k with
    | zero => simp (disch := omega) [layWords, bytesOfWord, Memory.read, if_neg]
    | succ k =>
      have hpast : a + 4 * (k + 1) = a + 4 + 4 * k := by ring
      rw [hpast, List.getElem_cons_succ, ← ih (Nat.lt_of_succ_lt_succ h)]
      exact Memory.readBytes_congr fun b hlo _ => read_layWords_cons (by omega)

/-- Settles O35: the words of the text one after another, and its addresses. -/
theorem launchLaysOutProgram : Obligations.LaunchLaysOutProgram := by
  refine ⟨fun l s h => ?_, fun s r h => by rw [stepRecorded_of_record h, h]⟩
  obtain ⟨rfl, hp⟩ := launch_next h
  have hrecord : l.record = none := (holdsPremise_state l .noFault).1 (hp .noFault)
  refine ⟨rfl, rfl, rfl, hrecord, fun hpc => ?_, fun p hpc => ?_, fun k hk => readBytes_layWords hk, fun a => ?_⟩
  · rw [Launch.state, hpc, Option.getD_none]
  · rw [Launch.state, hpc, Option.getD_some]
  · rw [Memory.isSome_read, Launch.state, layWords_addresses, List.mem_range'_1]

/-! ### The invariant at the start -/

/-- Settles O37: the premises, and the text as it is laid out. -/
theorem launchEstablishesInvariant : Obligations.LaunchEstablishesInvariant := by
  intro l s h hdata
  obtain ⟨rfl, hp⟩ := launch_next h
  have hl (p : Premise) : LaunchPremise l p := (holdsPremise_state l p).1 (hp p)
  obtain ⟨hfrom, hto⟩ := hl .pcInText
  exact
    ⟨{ alignedBase := hl .alignedBase
       alignedPc := hl .alignedPc
       textFits := hl .textFits
       pcFromBase := hfrom
       pcToEnd := hto
       textLaid := layWords_addresses _ _
       textWf := layWords_wf _ _
       dataWf := hdata },
     ⟨hl .vecAvailable, hl .noFault, hl .noInterrupts⟩⟩

/-- The launch of the empty program that `State.reset` is (logs 1 and 5). -/
def resetLaunch : Launch where
  text := []
  params := Params.standard
  pc := none
  vr := Vector.replicate 128 (.holds Vec.zero)
  other := Untouched.zero
  record := none

theorem launch_resetLaunch : launch resetLaunch = .next State.reset := rfl

/-- Settles O39: reset is an accepted launch, of the empty program. -/
theorem resetState : Obligations.ResetState := by
  obtain ⟨hinv, hstand⟩ := launchEstablishesInvariant resetLaunch State.reset launch_resetLaunch List.Pairwise.nil
  exact ⟨hinv, hstand, fun n => ⟨Vec.zero, readVR_reset n⟩, rfl, rfl, runOver_iff.2 ⟨rfl, rfl⟩⟩

end Sys2Proof.Machine
end

section
/-! PROOF. A word placed from outside (log 6). -/

namespace Sys2Proof.Machine

theorem withFetchWord_toNat (s : State) (w : Word) : s.withFetchWord 32 w.toNat = placeBytes s (bytesOfWord w) := by
  rw [State.withFetchWord, Nat.mod_eq_of_lt w.isLt, BitVec.ofNat_toNat, BitVec.setWidth_eq]

/-- Placing bytes changes the text, its length and PROGRAM_BASE only. -/
theorem placeBytes_frame {s t : State} {bs : List Byte} (h : placeBytes s bs = t) :
    t.vr = s.vr ∧ t.pc = s.pc ∧ t.other = s.other ∧ t.record = s.record ∧
      t.params = { s.params with programBase := t.params.programBase } := by
  subst h
  unfold placeBytes
  split_ifs <;> exact ⟨rfl, rfl, rfl, rfl, rfl⟩

/-- The bytes placed are read back at the pc, which is inside the text they are placed in. -/
theorem placeBytes_in_text {s t : State} {bs : List Byte} (h : placeBytes s bs = t) :
    base t ≤ s.pc.toNat ∧ s.pc.toNat < textEnd t ∧ t.text.readBytes s.pc.toNat bs.length = some bs := by
  subst h
  unfold placeBytes
  split_ifs with hin hend
  · exact ⟨hin.1, hin.2, Memory.readBytes_writeBytes ..⟩
  · refine ⟨?_, ?_, Memory.readBytes_writeBytes ..⟩
    · show base s ≤ s.pc.toNat
      rw [hend, textEnd]
      omega
    · show s.pc.toNat < base s + 4 * (s.textLen + 1)
      rw [hend, textEnd]
      omega
  · refine ⟨Nat.le_refl _, ?_, Memory.readBytes_writeBytes ..⟩
    show s.pc.toNat < s.pc.toNat + 4 * 1
    omega

/-- Settles O44: in each of the three cases the word is in the text, at the pc. -/
theorem placedWordRunsNext : Obligations.PlacedWordRunsNext := by
  intro s w i hs h4 ho hi
  simp only [withFetchWord_toNat]
  generalize hplace : placeBytes s (bytesOfWord w) = t
  obtain ⟨hvr, hpc, hother, hrecord, hparams⟩ := placeBytes_frame hplace
  obtain ⟨hfrom, hbefore, hbytes⟩ := placeBytes_in_text hplace
  have hpcBits : t.params.pcBits = s.params.pcBits := by rw [hparams]
  have hbit21 : t.params.bit21 = s.params.bit21 := by rw [hparams]
  have hstand : Standing t :=
    ⟨by rw [hparams]; exact hs.vec, hrecord.trans hs.noFault, by rw [hparams]; exact hs.noInterrupts⟩
  rw [← hpc] at hfrom hbefore hbytes h4 ho
  rw [← hpcBits] at ho
  rw [← hbit21] at hi
  exact ⟨step_of_ok ⟨hstand, h4, hfrom, hbefore, hbytes⟩ hi ho, hvr, hpc, hother⟩

end Sys2Proof.Machine
end
